-- ==== Sys2Proof/Config.lean ====
section
/-!
DEFINITION. The parameters of the block (00_scope.md R5). `latency` is the one R5 leaves open, and it has no body. The others are
fixed and stand where they are used: `ID_BITS` 128, `ID_BYTES` 16, `SF_CHARS` 22, `CHAR_BITS` 8, `FLAG_BITS` 6, `FL_W` 8, `SLEN_W` 8, `ADDR_W` 6
and `DATA_W` 8 in the types of Word.lean and Machine/State.lean, `MARK_BYTE_LO` 7 and `MARK_BYTE_HI` 8 in Machine/Operands.lean, and `ALPHA`,
the fixed table of R67, in Machine/Alphabet.lean.
-/

namespace Sys2Proof.Config

/-- R5 `LATENCY`, open (D15, U11): the time from a command write to its completion, in whatever unit an implementation uses. The
argument is the command's opcode byte: R165 makes the time the same for every OPERAND value and does not say that two commands take
the same time. No rule reads it and no step reads it (log 8). -/
opaque latency : BitVec 8 → Nat

end Sys2Proof.Config
end

