-- ==== Sys2Proof/Word.lean ====
section
/-!
DEFINITION. The words of the block (00_scope.md R5, R6): bytes, addresses, sextets, flags values, and the two arrays of bytes
the commands work on. Bit 0 is the least significant bit; the spec's `v[hi:lo]` is `v.extractLsb hi lo`, its `a ∥ b` is `a ++ b`.
-/

namespace Sys2Proof

/-- R6: a byte, the width of every register and of every host access (R46). -/
abbrev Byte := BitVec 8

/-- R40: an address of the register space, `0x00` to `0x3F`. -/
abbrev Addr := BitVec 6

/-- R10: the 6-bit unit one base64 character stands for. -/
abbrev Sextet := BitVec 6

/-- R24: a flags value in range, 0..63. -/
abbrev FlagsValue := BitVec 6

/-- R21: sixteen ordered bytes; byte index 0 is the first. -/
abbrev Identifier := Vector Byte 16

/-- R26: twenty-two 8-bit characters; character index 0 is the first. -/
abbrev Characters := Vector Byte 22

end Sys2Proof
end

