-- ==== Sys2Proof/Syntax.lean ====
section
/-!
DEFINITION. The seven commands (30_encoding.md R61), the three host actions (20_memory.md R42, R43; 70_reset_and_hazards.md R160),
the named locations of the register space (R41) and the lines of a host script (R65, R66).
-/

namespace Sys2Proof

/-- The command set (R61), one constructor per row of the opcode table. A command has no operand field (R63). -/
inductive Instr where
  /-- `ENC`, `Codec.Encode` (R85). -/
  | enc
  /-- `DEC`, the strict `Codec.Decode` (R100). -/
  | dec
  /-- `TRYDEC`, the probing `tryDecode` (R101). -/
  | trydec
  /-- `PACK`, the encode half of the flags bit-field codec (R83). -/
  | pack
  /-- `UNPACK`, the decode half of the flags bit-field codec (R99). -/
  | unpack
  /-- `B64E`, the base64 encoder alone (R84). -/
  | b64e
  /-- `B64D`, the base64 decoder alone (R98). -/
  | b64d
deriving DecidableEq, Repr

/-- What the one agent, the host, can do at the block's port (R42, R43, R160). -/
inductive HostAction where
  /-- `WR a, v`: write byte `v` at address `a` (R42); at `CMD` it starts a command. -/
  | wr (a : Addr) (v : Byte)
  /-- `RD a`: read the byte at address `a` (R43). -/
  | rd (a : Addr)
  /-- `RESET` (R160). -/
  | reset
deriving DecidableEq, Repr

/-- The named locations of the register map (R41). Every other address is reserved. -/
inductive Location where
  /-- `ID[i]`, addresses `0x00`..`0x0F`. -/
  | ident (i : Fin 16)
  /-- `FL`, address `0x10`. -/
  | fl
  /-- `SLEN`, address `0x11`. -/
  | slen
  /-- `STATUS`, address `0x12`, read-only. -/
  | status
  /-- `CMD`, address `0x13`, write-only; not a storage location (R30). -/
  | cmd
  /-- `SF[k]`, addresses `0x20`..`0x35`. -/
  | sf (k : Fin 22)
deriving DecidableEq, Repr

/-- One line of a host script (R65) or one pseudo-instruction (R66). Numbers are as written in the script; `ScriptLine.wf` says
which ones the notation admits. -/
inductive ScriptLine where
  /-- `WR a, v`. -/
  | wr (a v : Nat)
  /-- `RD a`. -/
  | rd (a : Nat)
  /-- `WR name, v`. -/
  | wrName (r : Location) (v : Nat)
  /-- `RD name`. -/
  | rdName (r : Location)
  /-- A command mnemonic. -/
  | command (i : Instr)
  /-- `RESET`. -/
  | reset
  /-- `LDID b0 b1 ... b15`. -/
  | ldid (bytes : List Nat)
  /-- `LDFL v`. -/
  | ldfl (v : Nat)
  /-- `LDSF "c0c1...c(n-1)"`, the characters by their ASCII codes. -/
  | ldsf (chars : List Nat)
  /-- `RDID`. -/
  | rdid
  /-- `RDFL`. -/
  | rdfl
  /-- `RDSF`. -/
  | rdsf
  /-- `RDST`. -/
  | rdst
deriving DecidableEq, Repr

/-- The underlying integer kind of a host enumeration (R115): the eight recognized kinds, and any other. -/
inductive IntKind where
  /-- Signed 8-bit. -/
  | i8
  /-- Unsigned 8-bit. -/
  | u8
  /-- Signed 16-bit. -/
  | i16
  /-- Unsigned 16-bit. -/
  | u16
  /-- Signed 32-bit. -/
  | i32
  /-- Unsigned 32-bit. -/
  | u32
  /-- Signed 64-bit. -/
  | i64
  /-- Unsigned 64-bit. -/
  | u64
  /-- Any kind that is not one of the eight. -/
  | unrecognized
deriving DecidableEq, Repr

/-- A value of a host enumeration (R116, R119): its underlying integer kind, which the caller's type system declares, and its number
as a mathematical integer. -/
structure EnumValue where
  /-- The underlying integer kind. -/
  kind : IntKind
  /-- The numeric value. -/
  value : Int
deriving DecidableEq, Repr

end Sys2Proof
end

