-- ==== Sys2Proof/Machine/State.lean ====
section
/-!
DEFINITION. The state of the block (10_state.md R20: 41 byte registers), the host's side of its one port, the error kinds (60_exceptions.md
R140), and the state after reset (R32).
-/

namespace Sys2Proof.Machine

/-- The error kinds of R140. `raise` records one in `STATUS.ERR`; none of them stops the machine (R141, R148). -/
inductive ErrKind where
  /-- LengthError: `SLEN != 22`. Raised by `DEC` and `B64D`. -/
  | length
  /-- FormatError: `SLEN == 22` and some character outside the alphabet. Raised by `DEC` and `B64D`. -/
  | format
  /-- RangeError: `FL[7:6] != 0b00`. Raised by `ENC` and `PACK`. -/
  | range
  /-- InvalidValueError: AllZero or EmptySentinel given to `ENC`, EmptySentinel out of `DEC`. -/
  | invalidValue
  /-- UnsupportedTypeError: host software's alone (R115); no command raises it. -/
  | unsupportedType
  /-- IllegalCommand: a byte other than `0x01`..`0x07` written to `CMD` (R62). -/
  | illegalCommand
deriving DecidableEq, Repr

/-- Reasons a step stops the machine with a fault. There is none: every host action is performed and every command ends in `done`,
in `raise`, or in a failed probe, and the block goes on (R8, R42, R43, R148, R166). -/
inductive Fault
deriving DecidableEq, Repr

/-- Reasons a step is refused. -/
inductive Refusal where
  /-- An instruction with no meaning, by its mnemonic. Raised by no arm of `exec`: all seven commands have their meaning. Safe: the
  model would stop where the hardware goes on. -/
  | notModelled (mnemonic : String)
deriving DecidableEq, Repr

/-- The machine. The first five fields are the block's 41 registers, all of its architectural state (R20); the last two are the host
at the other end of the port and no part of the block (log 1, log 3). -/
structure State where
  /-- `ID[0..15]` (R21). -/
  ident : Identifier
  /-- `FL` (R24). -/
  fl : Byte
  /-- `SLEN` (R25). -/
  slen : Byte
  /-- `SF[0..21]` (R26). -/
  sf : Characters
  /-- `STATUS` (R27). -/
  status : Byte
  /-- MODEL field: the host actions not yet performed, in the order the host issues them (R48(a), R65; log 1). -/
  script : List HostAction
  /-- MODEL field: the bytes the host's reads have returned, oldest first (R43; log 3). -/
  reads : List Byte
deriving DecidableEq, Repr

/-- R32, R160: every register zero. The host has issued nothing and read nothing (log 1, log 3). -/
def State.reset : State where
  ident := Vector.replicate 16 0x00#8
  fl := 0x00#8
  slen := 0x00#8
  sf := Vector.replicate 22 0x00#8
  status := 0x00#8
  script := []
  reads := []

end Sys2Proof.Machine
end

