-- ==== Sys2Proof/Machine/Flags.lean ====
section
/-!
DEFINITION. The two status computations of the block: the layout of `STATUS` (10_state.md R27, 60_exceptions.md R140) and the range
check of `FL` (R24). There are no condition codes (R29).
-/

namespace Sys2Proof.Machine

/-- R140: the code of an error kind in `STATUS.ERR`. -/
def errCode : ErrKind → BitVec 3
  | .length => 1#3
  | .format => 2#3
  | .range => 3#3
  | .invalidValue => 4#3
  | .unsupportedType => 5#3
  | .illegalCommand => 6#3

/-- R141: the whole of `STATUS` after `raise e`, `zext_8(code(e) ∥ 0b0)`. -/
def errorStatus (e : ErrKind) : Byte := (errCode e ++ 0b0#1).setWidth 8

/-- R142: the whole of `STATUS` after `done`. -/
def okStatus : Byte := 0x01#8

/-- R101: the whole of `STATUS` after a failed `TRYDEC`, a boolean "no" with no kind. -/
def probeFailedStatus : Byte := 0x00#8

/-- R27: bit 0, `STATUS.OK`. -/
def statusOk (v : Byte) : Bool := v.getLsbD 0

/-- R27: bits 3:1, `STATUS.ERR`. -/
def statusErr (v : Byte) : BitVec 3 := v.extractLsb 3 1

/-- R24: a value of `FL` is in range if and only if `FL[7:6] == 0b00`. -/
def flagsInRange (fl : Byte) : Bool := fl.extractLsb 7 6 == 0b00#2

/-- R24: the flags value `FL[5:0]`. -/
def flagsValue (fl : Byte) : FlagsValue := fl.extractLsb 5 0

/-- R100, R99: the byte a decoder writes to `FL`, `zext_8(f)`, so `FL[7:6] == 0b00`. -/
def flagsByte (f : FlagsValue) : Byte := 0b00#2 ++ f

end Sys2Proof.Machine
end

