-- ==== Sys2Proof/Machine/Alphabet.lean ====
section
/-!
DEFINITION. The URL-safe base64 alphabet (30_encoding.md R67) as conflict C1 resolves it: `-` is 62 and `_` is 63 in both
directions (log 5).
-/

namespace Sys2Proof.Machine

/-- R67 `ALPHA`: the character of a sextet, by the rule's formula. -/
def alpha (v : Sextet) : Byte :=
  if v.toNat ≤ 25 then 0x41#8 + v.setWidth 8
  else if v.toNat ≤ 51 then 0x61#8 + (v.setWidth 8 - 26#8)
  else if v.toNat ≤ 61 then 0x30#8 + (v.setWidth 8 - 52#8)
  else if v = 62#6 then 0x2D#8
  else 0x5F#8

/-- R67 `in_alpha`: membership of a byte in `[A-Za-z0-9_-]`. All eight bits are compared (D27). -/
def inAlpha (c : Byte) : Bool :=
  (decide (0x41#8 ≤ c) && decide (c ≤ 0x5A#8)) || (decide (0x61#8 ≤ c) && decide (c ≤ 0x7A#8)) ||
    (decide (0x30#8 ≤ c) && decide (c ≤ 0x39#8)) || c == 0x2D#8 || c == 0x5F#8

/-- R67 `ALPHA_INV`: the sextet of a character of the alphabet. The rule never applies it to any other byte, and neither does the
model: `b64d` calls it only after the alphabet check. -/
def alphaInv (c : Byte) : Sextet :=
  if 0x41#8 ≤ c ∧ c ≤ 0x5A#8 then (c - 0x41#8).setWidth 6
  else if 0x61#8 ≤ c ∧ c ≤ 0x7A#8 then (c - 0x61#8 + 26#8).setWidth 6
  else if 0x30#8 ≤ c ∧ c ≤ 0x39#8 then (c - 0x30#8 + 52#8).setWidth 6
  else if c = 0x2D#8 then 62#6
  else 63#6

end Sys2Proof.Machine
end

