-- ==== Sys2Proof/Machine/Operands.lean ====
section
/-!
DEFINITION. The operand forms: a command's operands are fixed registers (30_encoding.md R63), so these are the bit-fields and
layouts of an Identifier and of a string: marker bits and payload (10_state.md R21 to R23), the sextet layout (R68), the length and
alphabet checks (R95).
-/

namespace Sys2Proof.Machine

/-- R22: AllZero, sixteen `0x00` bytes. -/
def allZero : Identifier :=
  #v[0x00, 0x00, 0x00, 0x00, 0x00, 0x00, 0x00, 0x00, 0x00, 0x00, 0x00, 0x00, 0x00, 0x00, 0x00, 0x00]

/-- R22: EmptySentinel, all zero but for the canonical markers. -/
def emptySentinel : Identifier :=
  #v[0x00, 0x00, 0x00, 0x00, 0x00, 0x00, 0x00, 0x40, 0x80, 0x00, 0x00, 0x00, 0x00, 0x00, 0x00, 0x00]

/-- R21: `b` with its six marker bits replaced, the version nibble `ID[7][7:4]` by `lo` and the variant pair `ID[8][7:6]` by `hi`;
the 122 payload bits stay. `pack` and `normalize` are its two uses. -/
def withMarkers (b : Identifier) (lo : BitVec 4) (hi : BitVec 2) : Identifier :=
  (b.set 7 (lo ++ b[7].extractLsb 3 0)).set 8
    (hi ++ b[8].extractLsb 5 0)

/-- R23 `normalize`: the marker bits forced to `0100` and `10`. -/
def normalizeMarkers (b : Identifier) : Identifier := withMarkers b 0b0100#4 0b10#2

/-- R70, R96: the marker bits read as a flags value, `(high-pair << 4) | low-nibble`. -/
def markerFlags (b : Identifier) : FlagsValue :=
  b[8].extractLsb 7 6 ++ b[7].extractLsb 7 4

/-- R23 `payload_zero`: the 122 payload bits are all zero. -/
def payloadZero (b : Identifier) : Bool :=
  b[0] == 0x00#8 && b[1] == 0x00#8 && b[2] == 0x00#8 && b[3] == 0x00#8 && b[4] == 0x00#8 && b[5] == 0x00#8 &&
    b[6] == 0x00#8 && b[9] == 0x00#8 && b[10] == 0x00#8 && b[11] == 0x00#8 && b[12] == 0x00#8 && b[13] == 0x00#8 &&
    b[14] == 0x00#8 && b[15] == 0x00#8 && b[7].extractLsb 3 0 == 0x0#4 && b[8].extractLsb 5 0 == 0b000000#6

/-- R10: a canonical identifier is one whose marker bits are `0100` and `10`. -/
def canonical (b : Identifier) : Bool :=
  b[7].extractLsb 7 4 == 0b0100#4 && b[8].extractLsb 7 6 == 0b10#2

/-- R68 `V`: the 128-bit number `b[0] ∥ b[1] ∥ ... ∥ b[15]`, `b[0]` most significant. -/
def catBytes (b : Identifier) : BitVec 128 :=
  b[0] ++ b[1] ++ b[2] ++ b[3] ++ b[4] ++ b[5] ++ b[6] ++ b[7] ++
    b[8] ++ b[9] ++ b[10] ++ b[11] ++ b[12] ++ b[13] ++ b[14] ++ b[15]

/-- R95 `W`: the 132-bit number `s[0] ∥ s[1] ∥ ... ∥ s[21]`, `s[0]` most significant. -/
def catSextets (s : Vector Sextet 22) : BitVec 132 :=
  s[0] ++ s[1] ++ s[2] ++ s[3] ++ s[4] ++ s[5] ++ s[6] ++ s[7] ++ s[8] ++ s[9] ++ s[10] ++
    s[11] ++ s[12] ++ s[13] ++ s[14] ++ s[15] ++ s[16] ++ s[17] ++ s[18] ++ s[19] ++ s[20] ++ s[21]

/-- R68: the 22 sextets of sixteen bytes, `s[k] = W[131-6k : 126-6k]` of `W = V ∥ 0b0000`. -/
def sextetsOf (b : Identifier) : Vector Sextet 22 :=
  Vector.ofFn fun k => (catBytes b ++ 0b0000#4).extractLsb' (126 - 6 * k.val) 6

/-- R95 step 4: the sixteen bytes of 22 sextets, `b[i] = V[127-8i : 120-8i]` of `V = W[131:4]`; the spare bits `W[3:0]` are
dropped unexamined (log 6). -/
def bytesOf (s : Vector Sextet 22) : Identifier :=
  Vector.ofFn fun i => ((catSextets s).extractLsb 131 4).extractLsb' (120 - 8 * i.val) 8

/-- R67, R81: the characters of 22 sextets. -/
def charsOf (s : Vector Sextet 22) : Characters := Vector.ofFn fun k => alpha s[k]

/-- R67, R95 step 3: the sextets of 22 characters of the alphabet. -/
def sextetsOfChars (cs : Characters) : Vector Sextet 22 := Vector.ofFn fun k => alphaInv cs[k]

/-- R25: the length check, `SLEN == 22`. -/
def lengthOk (n : Byte) : Bool := n == 22#8

/-- R95 step 2: all 22 characters are in the alphabet. -/
def charsOk (cs : Characters) : Bool := decide (∀ k : Fin 22, inAlpha cs[k] = true)

end Sys2Proof.Machine
end

