-- ==== Sys2Proof/Machine/Codec.lean ====
section
/-!
DEFINITION. The pure functions of the three units and of the composed codec (40_encode.md R80 to R82, 41_decode.md R95 to R97). A
function that can fail answers the error kind (00_scope.md R8).
-/

namespace Sys2Proof.Machine

/-- R80 `pack(b, f)`: the flags written over the marker bits. -/
def pack (b : Identifier) (f : FlagsValue) : Identifier := withMarkers b (f.extractLsb 3 0) (f.extractLsb 5 4)

/-- R81 `b64e(b)`: sixteen bytes as 22 characters. -/
def b64e (b : Identifier) : Characters := charsOf (sextetsOf b)

/-- R82 `encode(b, fl)`: the range check, then the identifier check, then the encoding. -/
def codecEncode (b : Identifier) (fl : Byte) : Except ErrKind Characters :=
  if flagsInRange fl = false then .error .range
  else if b = allZero ∨ b = emptySentinel then .error .invalidValue
  else .ok (b64e (pack b (flagsValue fl)))

/-- R95 `b64d(n, c)`: the length check, then the alphabet check, then sixteen bytes. When the length check fails no character is
examined. -/
def b64d (n : Byte) (c : Characters) : Except ErrKind Identifier :=
  if lengthOk n = false then .error .length
  else if charsOk c = false then .error .format
  else .ok (bytesOf (sextetsOfChars c))

/-- R96 `unpack(b)`: the flags as the bytes hold them, and the identifier with its markers restored. -/
def unpack (b : Identifier) : Identifier × FlagsValue := (normalizeMarkers b, markerFlags b)

/-- R97 `decode(n, c)`: `b64d`, `unpack`, then the EmptySentinel check on the normalized identifier. -/
def codecDecode (n : Byte) (c : Characters) : Except ErrKind (Identifier × FlagsValue) :=
  match b64d n c with
  | .error e => .error e
  | .ok b => if (unpack b).1 = emptySentinel then .error .invalidValue else .ok (unpack b)

end Sys2Proof.Machine
end

