-- ==== Sys2Proof/Machine/Ops.lean ====
section
/-!
DEFINITION. The named operations over the registers: ending a command (60_exceptions.md R141, R142), the register writes the
commands share, the register map (20_memory.md R41), a host read (R43), and reset (70_reset_and_hazards.md R160). There is no
return from an error, because an error takes control nowhere (R148).
-/

namespace Sys2Proof.Machine

/-- R141 `raise E`: `STATUS` records the kind and nothing else is written. This is all that taking an error is on this block: no
vector, no saved state, no mode change. -/
def raise (e : ErrKind) (s : State) : State := { s with status := errorStatus e }

/-- R142 `done`: `STATUS <- 0x01`. -/
def done (s : State) : State := { s with status := okStatus }

/-- R101: a failed `TRYDEC`, `STATUS <- 0x00` and nothing else. -/
def probeFailed (s : State) : State := { s with status := probeFailedStatus }

/-- R98: `ID[i] <- b[i]` for `i` in 0..15. -/
def setIdent (b : Identifier) (s : State) : State := { s with ident := b }

/-- R99, R100: `FL <- zext_8(f)`. -/
def setFlags (f : FlagsValue) (s : State) : State := { s with fl := flagsByte f }

/-- R84, R85: `SF[k] <- c[k]` for `k` in 0..21, and `SLEN <- 22`. -/
def setString (c : Characters) (s : State) : State :=
  { s with sf := c, slen := 22#8 }

/-- R41: the register map; `none` for the reserved addresses `0x14`..`0x1F` and `0x36`..`0x3F`. -/
def locate (a : Addr) : Option Location :=
  if h : a.toNat ≤ 0x0F then some (.ident ⟨a.toNat, by omega⟩)
  else if a = 0x10#6 then some .fl
  else if a = 0x11#6 then some .slen
  else if a = 0x12#6 then some .status
  else if a = 0x13#6 then some .cmd
  else if h : 0x20 ≤ a.toNat ∧ a.toNat ≤ 0x35 then some (.sf ⟨a.toNat - 0x20, by omega⟩)
  else none

/-- R41: the address of a named location. -/
def addressOf : Location → Addr
  | .ident i => BitVec.ofNat 6 i.val
  | .fl => 0x10#6
  | .slen => 0x11#6
  | .status => 0x12#6
  | .cmd => 0x13#6
  | .sf k => BitVec.ofNat 6 (0x20 + k.val)

/-- R43 `MemRead(a, 1)`: what a host read at `a` returns. `CMD` and the reserved addresses read `0x00` (R44). -/
def readReg (s : State) (a : Addr) : Byte :=
  match locate a with
  | some (.ident i) => s.ident[i]
  | some .fl => s.fl
  | some .slen => s.slen
  | some .status => s.status
  | some .cmd => 0x00#8
  | some (.sf k) => s.sf[k]
  | none => 0x00#8

/-- R160 `RESET`: every register to zero. The host's pending actions and the bytes it has read are no registers of the block and
stay (log 7). -/
def resetRegs (s : State) : State :=
  { s with
    ident := State.reset.ident
    fl := State.reset.fl
    slen := State.reset.slen
    sf := State.reset.sf
    status := State.reset.status }

/-- R48(a): the host's next action, with the state the block performs it in; `none` when the host has nothing to issue. -/
def nextAction (s : State) : Option (HostAction × State) :=
  match s.script with
  | [] => none
  | a :: rest => some (a, { s with script := rest })

end Sys2Proof.Machine
end

