-- ==== Sys2Proof/Machine/DecodeFamily.lean ====
section
/-!
DEFINITION. The decode family (41_decode.md): `B64D`, `UNPACK`, `DEC`, `TRYDEC`. Each command is a function of the registers at
its start (00_scope.md R7), with every check before every write (60_exceptions.md R143).
-/

namespace Sys2Proof.Machine

/-- R98 `B64D`. -/
def execB64d (s : State) : Host.Outcome State Fault Refusal :=
  match b64d s.slen s.sf with
  | .error e => .next (raise e s)
  | .ok b => .next (done (setIdent b s))

/-- R99 `UNPACK`. -/
def execUnpack (s : State) : Host.Outcome State Fault Refusal :=
  .next (done (setFlags (unpack s.ident).2 (setIdent (unpack s.ident).1 s)))

/-- R100 `DEC`. -/
def execDec (s : State) : Host.Outcome State Fault Refusal :=
  match codecDecode s.slen s.sf with
  | .error e => .next (raise e s)
  | .ok (g, f) => .next (done (setFlags f (setIdent g s)))

/-- R101 `TRYDEC`. -/
def execTrydec (s : State) : Host.Outcome State Fault Refusal :=
  match codecDecode s.slen s.sf with
  | .error _ => .next (probeFailed s)
  | .ok (g, f) => .next (done (setFlags f (setIdent g s)))

end Sys2Proof.Machine
end

