-- ==== Sys2Proof/Machine/EncodeFamily.lean ====
section
/-!
DEFINITION. The encode family (40_encode.md): `ENC`, `PACK`, `B64E`. Each command is a function of the registers at its start (00_scope.md
R7), with every check before every write (60_exceptions.md R143).
-/

namespace Sys2Proof.Machine

/-- R85 `ENC`. -/
def execEnc (s : State) : Host.Outcome State Fault Refusal :=
  match codecEncode s.ident s.fl with
  | .error e => .next (raise e s)
  | .ok c => .next (done (setString c s))

/-- R83 `PACK`. -/
def execPack (s : State) : Host.Outcome State Fault Refusal :=
  if flagsInRange s.fl = false then .next (raise .range s)
  else .next (done (setIdent (pack s.ident (flagsValue s.fl)) s))

/-- R84 `B64E`. -/
def execB64e (s : State) : Host.Outcome State Fault Refusal :=
  .next (done (setString (b64e s.ident) s))

end Sys2Proof.Machine
end

