-- ==== Sys2Proof/WellFormed.lean ====
section
/-!
DEFINITION. Which terms of the syntax are well formed. A command has no field that could hold a bad value (30_encoding.md R60, R63);
the lines of a host script do (R65, R66).
-/

namespace Sys2Proof

/-- Every command is well formed: all eight bits of its byte are opcode and it has no operand field (R60, R63, R64). -/
def Instr.wf : Instr → Bool
  | .enc => true
  | .dec => true
  | .trydec => true
  | .pack => true
  | .unpack => true
  | .b64e => true
  | .b64d => true

/-- A number that fits a byte register or a host access (R46). -/
def byteNumber (v : Nat) : Bool := decide (v < 256)

/-- A number that is an address of the register space (R40). -/
def addrNumber (a : Nat) : Bool := decide (a < 64)

/-- The lines R65 and R66 admit: an address has 6 bits, a byte 8; `LDID` has sixteen bytes; `LDSF` quotes at most 255 ASCII
characters. -/
def ScriptLine.wf : ScriptLine → Bool
  | .wr a v => addrNumber a && byteNumber v
  | .rd a => addrNumber a
  | .wrName _ v => byteNumber v
  | .rdName _ => true
  | .command i => i.wf
  | .reset => true
  | .ldid bytes => decide (bytes.length = 16) && bytes.all byteNumber
  | .ldfl v => byteNumber v
  | .ldsf chars => decide (chars.length ≤ 255) && chars.all fun c => decide (c < 128)
  | .rdid => true
  | .rdfl => true
  | .rdsf => true
  | .rdst => true

end Sys2Proof
end

