-- ==== Sys2Proof/Decode.lean ====
section
/-!
DEFINITION. The command decoder and encoder (30_encoding.md Part A): one length, one format `C8`, all eight bits opcode.
-/

namespace Sys2Proof

/-- Why the decoder turns a command byte away. -/
inductive DecodeReject where
  /-- R62: the byte is none of the seven opcodes. The `CMD` write then records IllegalCommand (R140). -/
  | illegalCommand (b : Byte)
deriving DecidableEq, Repr

/-- One row of the opcode map (R61): it selects `instr` when `(byte & mask) == pattern`. -/
structure OpcodeRow where
  /-- The row's `match` byte. -/
  pattern : Byte
  /-- The row's `mask` byte. -/
  mask : Byte
  /-- The command the row selects. -/
  instr : Instr
deriving DecidableEq, Repr

/-- The opcode map of R61. -/
def opcodeMap : List OpcodeRow :=
  [⟨0x01#8, 0xFF#8, .enc⟩,
   ⟨0x02#8, 0xFF#8, .dec⟩,
   ⟨0x03#8, 0xFF#8, .trydec⟩,
   ⟨0x04#8, 0xFF#8, .pack⟩,
   ⟨0x05#8, 0xFF#8, .unpack⟩,
   ⟨0x06#8, 0xFF#8, .b64e⟩,
   ⟨0x07#8, 0xFF#8, .b64d⟩]

/-- R61, R62: the command a byte selects, and a rejection by name for each of the 249 others. -/
def decode (b : Byte) : Except DecodeReject Instr :=
  match opcodeMap.find? fun r => b &&& r.mask == r.pattern with
  | some r => .ok r.instr
  | none => .error (.illegalCommand b)

/-- R61: the opcode byte of a command. -/
def encode : Instr → Byte
  | .enc => 0b00000001#8
  | .dec => 0b00000010#8
  | .trydec => 0b00000011#8
  | .pack => 0b00000100#8
  | .unpack => 0b00000101#8
  | .b64e => 0b00000110#8
  | .b64d => 0b00000111#8

/-- The command byte of a table word of `nbits` bits: a command is one byte long (R60), so it is the low byte of what the row
gives. -/
def tableByte (nbits w : Nat) : Byte := BitVec.ofNat 8 (w % 2 ^ nbits)

/-- The command the decoder reads from a table word. -/
def decodeTableWord (nbits w : Nat) : Option Instr :=
  match decode (tableByte nbits w) with
  | .ok i => some i
  | .error _ => none

end Sys2Proof
end

