-- ==== Sys2Proof/Machine/HostPort.lean ====
section
/-!
DEFINITION. The host's three actions at the block's one port (20_memory.md R42, R43; 70_reset_and_hazards.md R160). The meaning of
a command comes in as an argument, `run`; Step.lean gives it `exec`.
-/

namespace Sys2Proof.Machine

/-- R42 at `CMD`, R61, R62: the byte selects the command, which runs whole inside the write (R47); a byte that selects none raises
IllegalCommand and no command runs. -/
def startCommand (run : Instr → State → Host.Outcome State Fault Refusal) (v : Byte) (s : State) :
    Host.Outcome State Fault Refusal :=
  match decode v with
  | .ok i => run i s
  | .error (.illegalCommand _) => .next (raise .illegalCommand s)

/-- R42 `MemWrite(a, 1, v)`. A read/write register stores all eight bits as given; a write to `STATUS` or to a reserved address is
ignored (R44). -/
def hostWrite (run : Instr → State → Host.Outcome State Fault Refusal) (a : Addr) (v : Byte) (s : State) :
    Host.Outcome State Fault Refusal :=
  match locate a with
  | some (.ident i) => .next { s with ident := s.ident.set i v }
  | some .fl => .next { s with fl := v }
  | some .slen => .next { s with slen := v }
  | some .status => .next s
  | some .cmd => startCommand run v s
  | some (.sf k) => .next { s with sf := s.sf.set k v }
  | none => .next s

/-- R43: a host read changes no register; the byte it returns goes to the host (log 3). -/
def hostRead (a : Addr) (s : State) : State := { s with reads := s.reads ++ [readReg s a] }

/-- One host action, performed whole (R47, R48). -/
def performAction (run : Instr → State → Host.Outcome State Fault Refusal) (x : HostAction) (s : State) :
    Host.Outcome State Fault Refusal :=
  match x with
  | .wr a v => hostWrite run a v s
  | .rd a => .next (hostRead a s)
  | .reset => .next (resetRegs s)

/-- R48(a), R65: the block's response to a list of host actions, each complete before the next begins. -/
def performAll (run : Instr → State → Host.Outcome State Fault Refusal) : List HostAction → State →
    Host.Outcome State Fault Refusal
  | [], s => .next s
  | x :: xs, s =>
    match performAction run x s with
    | .next t => performAll run xs t
    | .fault r => .fault r
    | .refused r => .refused r

/-- The block's response to whatever the host does next; with nothing to do the block is idle and nothing changes (R147, R152,
log 4). -/
def respond (run : Instr → State → Host.Outcome State Fault Refusal) (s : State) : Host.Outcome State Fault Refusal :=
  match nextAction s with
  | none => .next s
  | some (x, s') => performAction run x s'

/-- R65: a command is issued by a write of its opcode byte to `CMD`; this puts that write before everything else the host has yet
to issue (log 2). -/
def issueCommandByte (b : Byte) (s : State) : State :=
  { s with script := HostAction.wr (addressOf .cmd) b :: s.script }

end Sys2Proof.Machine
end

