-- ==== Sys2Proof/Machine/Step.lean ====
section
/-!
DEFINITION. One step of the machine: the block performs the host's next action (20_memory.md R48(a)).
-/

namespace Sys2Proof.Machine

/-- One step: the first action of the host's script, or nothing when there is none. -/
def step (s : State) : Host.Outcome State Fault Refusal := respond exec s

/-- `s` with the command byte of a table word as the host's next action (R65; log 2). The block has no instruction memory and no
program counter (R28, R50), so this is where the next command comes from. -/
def State.withFetchWord (s : State) (nbits w : Nat) : State := issueCommandByte (tableByte nbits w) s

end Sys2Proof.Machine
end

