-- ==== Sys2Proof/Machine/Script.lean ====
section
/-!
DEFINITION. Host scripts: what each line of R65 and each pseudo-instruction of R66 (30_encoding.md) is as host actions, and the
text-to-bytes mapping of 10_state.md R33. The block sees only the actions.
-/

namespace Sys2Proof.Machine

/-- A byte written as a number in a script. -/
def scriptByte (v : Nat) : Byte := BitVec.ofNat 8 v

/-- An address written as a number in a script. -/
def scriptAddr (a : Nat) : Addr := BitVec.ofNat 6 a

/-- R65: the one write that issues a command. -/
def commandAction (i : Instr) : HostAction := .wr (addressOf .cmd) (encode i)

/-- Writes of consecutive bytes from address `base` up, the first at the lowest address. -/
def writesFrom (base : Nat) : List Nat → List HostAction
  | [] => []
  | v :: vs => .wr (scriptAddr base) (scriptByte v) :: writesFrom (base + 1) vs

/-- Reads of `n` consecutive addresses from `base` up. -/
def readsFrom (base : Nat) : Nat → List HostAction
  | 0 => []
  | n + 1 => .rd (scriptAddr base) :: readsFrom (base + 1) n

/-- R65, R66: the host actions of one line. `LDSF` writes min(n, 22) characters and then the length n. -/
def expandLine : ScriptLine → List HostAction
  | .wr a v => [.wr (scriptAddr a) (scriptByte v)]
  | .rd a => [.rd (scriptAddr a)]
  | .wrName r v => [.wr (addressOf r) (scriptByte v)]
  | .rdName r => [.rd (addressOf r)]
  | .command i => [commandAction i]
  | .reset => [.reset]
  | .ldid bytes => writesFrom 0x00 bytes
  | .ldfl v => [.wr (addressOf .fl) (scriptByte v)]
  | .ldsf chars => writesFrom 0x20 (chars.take 22) ++ [.wr (addressOf .slen) (scriptByte chars.length)]
  | .rdid => readsFrom 0x00 16
  | .rdfl => [.rd (addressOf .fl)]
  | .rdsf => .rd (addressOf .slen) :: readsFrom 0x20 22
  | .rdst => [.rd (addressOf .status)]

/-- R65: a script is its lines, performed top to bottom. -/
def expandScript : List ScriptLine → List HostAction
  | [] => []
  | l :: ls => expandLine l ++ expandScript ls

/-- R33: the sixteen bytes of `ID` from the sixteen bytes of a UUID text in reading order, first three groups byte-reversed
(K3; log 15). -/
def identOfText (t : Vector Byte 16) : Identifier :=
  #v[t[3], t[2], t[1], t[0], t[5], t[4], t[7], t[6], t[8], t[9], t[10], t[11], t[12], t[13], t[14], t[15]]

end Sys2Proof.Machine
end

