-- ==== Sys2Proof/Machine/FlagsAdapter.lean ====
section
/-!
DEFINITION. The FlagsAdapter (42_flags_adapter.md R115 to R120): host software over the block's commands, no unit of the block. A call of it
performs host actions on the block, reads what R116 and R117 read, and answers the caller. An error is answered by its code in the
numbering of R140, which R115 has host software and the block share.
-/

namespace Sys2Proof.Machine

/-- R115: whether an underlying integer kind is one of the eight recognized ones. -/
def recognizedKind : IntKind → Bool
  | .i8 => true
  | .u8 => true
  | .i16 => true
  | .u16 => true
  | .i32 => true
  | .u32 => true
  | .i64 => true
  | .u64 => true
  | .unrecognized => false

/-- R115: whether a value is one of a recognized kind's. -/
def kindHolds : IntKind → Int → Bool
  | .i8, v => decide (-2 ^ 7 ≤ v ∧ v < 2 ^ 7)
  | .u8, v => decide (0 ≤ v ∧ v < 2 ^ 8)
  | .i16, v => decide (-2 ^ 15 ≤ v ∧ v < 2 ^ 15)
  | .u16, v => decide (0 ≤ v ∧ v < 2 ^ 16)
  | .i32, v => decide (-2 ^ 31 ≤ v ∧ v < 2 ^ 31)
  | .u32, v => decide (0 ≤ v ∧ v < 2 ^ 32)
  | .i64, v => decide (-2 ^ 63 ≤ v ∧ v < 2 ^ 63)
  | .u64, v => decide (0 ≤ v ∧ v < 2 ^ 64)
  | .unrecognized, _ => false

/-- R116: the byte a host writes to `FL` for an enumeration value: the value itself in 0..255, otherwise `0xFF` (log 13). -/
def presentFlags (v : Int) : Byte := if 0 ≤ v ∧ v ≤ 255 then BitVec.ofInt 8 v else 0xFF#8

/-- R119: an enumeration value is bounded by its declared kind. A value that is not is no value of any caller's. -/
def enumBounded (e : EnumValue) : Bool := kindHolds e.kind e.value

/-- R117: the integer in `FL` as a value of the enumeration. It is not checked to be a declared member. -/
def enumOfFlags (k : IntKind) (fl : Byte) : EnumValue := ⟨k, fl.toNat⟩

/-- The 22 characters the host has read, the first read first. -/
def charsOfBytes (l : List Byte) : Characters := Vector.ofFn fun k => l.getD k.val 0x00#8

/-- The sixteen bytes the host has read, the first read first. -/
def identOfBytes (l : List Byte) : Identifier := Vector.ofFn fun i => l.getD i.val 0x00#8

/-- One exchange of the host with the block: it performs the actions, and goes on with the block's state and the bytes those actions'
reads returned. -/
def hostCall {α : Type} (xs : List HostAction) (goOn : State → List Byte → Host.Outcome α Fault Refusal) (s : State) :
    Host.Outcome α Fault Refusal :=
  match performAll exec xs s with
  | .next t => goOn t (t.reads.drop s.reads.length)
  | .fault r => .fault r
  | .refused r => .refused r

/-- R116: write `FL`, then load `ID`, issue `ENC`, and read `STATUS` and `SF`. -/
def encodeActions (g : Identifier) (v : Int) : List HostAction :=
  HostAction.wr (addressOf .fl) (presentFlags v) ::
    (expandScript [.ldid (g.toList.map (·.toNat)), .command .enc, .rdst] ++ readsFrom 0x20 22)

/-- R117: load `SF` and `SLEN`, issue `DEC`, read `STATUS`. A string too long for `SLEN` is presented with 255 (R25, log 13). -/
def decodeActions (c : List Byte) : List HostAction :=
  writesFrom 0x20 ((c.take 22).map (·.toNat)) ++
    HostAction.wr (addressOf .slen) (scriptByte (min c.length 255)) :: expandScript [.command .dec, .rdst]

/-- R117: what the host reads on success, `ID` and then `FL`. -/
def decodedReads : List HostAction := expandScript [.rdid, .rdfl]

/-- R116: what the caller gets from the bytes read, `STATUS` and then `SF`: the text on success, otherwise `ENC`'s error. -/
def encodeReply (bytes : List Byte) : Except (BitVec 3) Characters :=
  if statusOk (bytes.getD 0 0x00#8) then .ok (charsOfBytes (bytes.drop 1)) else .error (statusErr (bytes.getD 0 0x00#8))

/-- R117: what the caller gets from the bytes read, `ID` and then `FL`. -/
def decodeReply (k : IntKind) (bytes : List Byte) : Identifier × EnumValue :=
  (identOfBytes bytes, enumOfFlags k (bytes.getD 16 0x00#8))

/-- R115: the answer over an unrecognized kind, with no host action performed. -/
def unsupportedKind {α : Type} (s : State) : Host.Outcome (State × Except (BitVec 3) α) Fault Refusal :=
  .next (s, .error (errCode .unsupportedType))

/-- R115, R116 `encodeWithEnum`: the block's state after the call, and the text or the error's code. -/
def encodeWithEnum (g : Identifier) (e : EnumValue) (s : State) :
    Host.Outcome (State × Except (BitVec 3) Characters) Fault Refusal :=
  if recognizedKind e.kind then
    hostCall (encodeActions g e.value) (fun t bytes => .next (t, encodeReply bytes)) s
  else unsupportedKind s

/-- R115, R117 `decodeWithEnum` on a string given by its characters: the block's state after the call, and the identifier with the
enumeration value or `DEC`'s error by its code. `ID` and `FL` are read on success only. -/
def decodeWithEnum (k : IntKind) (c : List Byte) (s : State) :
    Host.Outcome (State × Except (BitVec 3) (Identifier × EnumValue)) Fault Refusal :=
  if recognizedKind k then
    hostCall (decodeActions c)
      (fun t bytes =>
        if statusOk (bytes.getD 0 0x00#8) then
          hostCall decodedReads (fun u bytes' => .next (u, .ok (decodeReply k bytes'))) t
        else .next (t, .error (statusErr (bytes.getD 0 0x00#8)))) s
  else unsupportedKind s

/-- R120: two decoded values are equal when their identifiers are; the flags, as a number or as an enumeration value, are left
out. -/
def sameDecoded {α : Type} (x y : Identifier × α) : Bool := x.1 == y.1

end Sys2Proof.Machine
end

