-- ==== Sys2Proof/Safety.lean ====
section
/-!
DEFINITION. What claims call a legal state and a safe run.
-/

namespace Sys2Proof.Machine

/-- 10_state.md R27: the only values of the whole `STATUS` register that occur. -/
abbrev StatusLegal (v : Byte) : Prop :=
  v = 0x00#8 ∨ v = 0x01#8 ∨ v = 0x02#8 ∨ v = 0x04#8 ∨ v = 0x06#8 ∨ v = 0x08#8 ∨ v = 0x0C#8

/-- The invariant of the block: `STATUS` holds one of the values R27 lists (93_implementation_defined.md U8). Every other register
may hold any byte (R21, R24, R25, R26). -/
abbrev State.Inv (s : State) : Prop := StatusLegal s.status

/-- The 40 registers other than `STATUS` are as before: what R143 says a command that fails leaves. -/
abbrev SameData (s t : State) : Prop := t.ident = s.ident ∧ t.fl = s.fl ∧ t.slen = s.slen ∧ t.sf = s.sf

/-- The host's side of the port is as before. -/
abbrev SameHost (s t : State) : Prop := t.script = s.script ∧ t.reads = s.reads

/-- A safe run: `k` steps that all answer a next state. The block has no other kind (R166). -/
abbrev SafeRun (k : Nat) (s : State) : Prop := ∃ t, Sys2Proof.core.run k s = .next t

end Sys2Proof.Machine
end

