-- ==== Sys2Proof/Certificates/Slice0/Obligations.lean ====
section
/-!
DEFINITION. The statements for the provers. A command's meaning is stated as the next state it gives, written out from the rule's
own slices, so that the same equation says what changes and what does not. Host actions are stated of `performAction exec`, the
block's response to one action; `step` is tied to it by `StepPerformsTheNextHostAction`.
-/

open Sys2Proof Sys2Proof.Machine

/-! ### Command encoding -/

/-- 30_encoding.md R61: the words of the opcode map, written out bit by bit, and four words beside it (R62). -/
def Obligations.OpcodeWordsDecode : Prop :=
  decode 0b00000001#8 = .ok .enc ∧ decode 0b00000010#8 = .ok .dec ∧ decode 0b00000011#8 = .ok .trydec ∧
  decode 0b00000100#8 = .ok .pack ∧ decode 0b00000101#8 = .ok .unpack ∧ decode 0b00000110#8 = .ok .b64e ∧
  decode 0b00000111#8 = .ok .b64d ∧
  decode 0b00000000#8 = .error (.illegalCommand 0x00#8) ∧ decode 0b00001000#8 = .error (.illegalCommand 0x08#8) ∧
  decode 0b00010001#8 = .error (.illegalCommand 0x11#8) ∧ decode 0b10000001#8 = .error (.illegalCommand 0x81#8)

/-- R61: decoding the encoding of a well-formed command gives the command back. -/
def Obligations.EncodedCommandDecodesToItself : Prop := ∀ i : Instr, i.wf = true → decode (encode i) = .ok i

/-- R61, R62: a byte 1..7 is the encoding of the command it decodes to, and every other byte is rejected by name. -/
def Obligations.DecoderAcceptsExactlySevenBytes : Prop :=
  ∀ b : Byte,
    (1 ≤ b.toNat ∧ b.toNat ≤ 7 → ∃ i, decode b = .ok i ∧ encode i = b) ∧
    (b.toNat = 0 ∨ 8 ≤ b.toNat → decode b = .error (.illegalCommand b))

/-! ### The step and the host's actions -/

/-- 20_memory.md R48(a), R147: a step performs the host's next action, and with none left it changes nothing. The host's script as
a list in the state is the model's choice (log 1, log 4). -/
def Obligations.StepPerformsTheNextHostAction : Prop :=
  (∀ (s : State) (x : HostAction) (rest : List HostAction), s.script = x :: rest →
    step s = performAction exec x { s with script := rest }) ∧
  (∀ s : State, s.script = [] → step s = .next s)

/-- A step at a write of a command's byte to `CMD` is the meaning of the decoded command, in the state the write finds with that
write taken off the host's script (log 1, log 2). -/
def Obligations.StepRunsTheDecodedCommand : Prop :=
  ∀ (s : State) (v : Byte) (rest : List HostAction) (i : Instr), s.script = .wr 0x13#6 v :: rest → decode v = .ok i →
    i.wf = true → step s = exec i { s with script := rest }

/-- The model's choice of log 2: a table word placed as the host's next command is read back by the decoder and run by the very
next step. -/
def Obligations.PlacedTableWordRunsNext : Prop :=
  ∀ (s : State) (i : Instr), decodeTableWord 8 (encode i).toNat = some i ∧
    step (s.withFetchWord 8 (encode i).toNat) = exec i s

/-- R62: an illegal byte written to `CMD` writes `STATUS <- 0x0C` and nothing else. -/
def Obligations.IllegalCommandByteIsRecorded : Prop :=
  ∀ (s : State) (v : Byte), v.toNat = 0 ∨ 8 ≤ v.toNat →
    performAction exec (.wr 0x13#6 v) s = .next { s with status := 0x0C#8 }

/-- R42: what a host write does at each address. -/
def Obligations.HostWriteByAddress : Prop :=
  ∀ (s : State) (a : Addr) (v : Byte),
    (∀ i : Fin 16, a.toNat = i.val → performAction exec (.wr a v) s = .next { s with ident := s.ident.set i.val v }) ∧
    (a = 0x10#6 → performAction exec (.wr a v) s = .next { s with fl := v }) ∧
    (a = 0x11#6 → performAction exec (.wr a v) s = .next { s with slen := v }) ∧
    (a = 0x13#6 → ∀ i, decode v = .ok i → performAction exec (.wr a v) s = exec i s) ∧
    (a = 0x13#6 → v.toNat = 0 ∨ 8 ≤ v.toNat → performAction exec (.wr a v) s = .next { s with status := 0x0C#8 }) ∧
    (∀ k : Fin 22, a.toNat = 0x20 + k.val →
      performAction exec (.wr a v) s = .next { s with sf := s.sf.set k.val v }) ∧
    (a = 0x12#6 ∨ (0x14 ≤ a.toNat ∧ a.toNat ≤ 0x1F) ∨ 0x36 ≤ a.toNat → performAction exec (.wr a v) s = .next s) ∧
    (∃ t, performAction exec (.wr a v) s = .next t)

/-- R43: what a host read returns at each address, and that it changes no register. -/
def Obligations.HostReadByAddress : Prop :=
  ∀ (s : State) (a : Addr),
    (∀ i : Fin 16, a.toNat = i.val → readReg s a = s.ident[i]) ∧
    (a = 0x10#6 → readReg s a = s.fl) ∧
    (a = 0x11#6 → readReg s a = s.slen) ∧
    (a = 0x12#6 → readReg s a = s.status) ∧
    (∀ k : Fin 22, a.toNat = 0x20 + k.val → readReg s a = s.sf[k]) ∧
    (a = 0x13#6 ∨ (0x14 ≤ a.toNat ∧ a.toNat ≤ 0x1F) ∨ 0x36 ≤ a.toNat → readReg s a = 0x00#8) ∧
    (∃ t, performAction exec (.rd a) s = .next t ∧ SameData s t ∧ t.status = s.status)

/-- R48(b), R44, through R42 and R43: after a write to any address but `CMD`, a read of that address gives the byte written if the
register map makes the address read/write, and every other read gives what it gave before. -/
def Obligations.ReadAfterWrite : Prop :=
  ∀ (s : State) (a : Addr) (v : Byte), a ≠ 0x13#6 →
    ∃ t, performAction exec (.wr a v) s = .next t ∧
      ∀ a' : Addr, readReg t a' =
        if a' = a ∧ (a.toNat ≤ 0x11 ∨ (0x20 ≤ a.toNat ∧ a.toNat ≤ 0x35)) then v else readReg s a'

/-- R66: two writes to different addresses, neither of them `CMD`, leave the same state in either order. -/
def Obligations.RegisterWritesCommute : Prop :=
  ∀ (s : State) (a b : Addr) (v w : Byte), a ≠ b → a ≠ 0x13#6 → b ≠ 0x13#6 →
    ∃ t u r, performAction exec (.wr a v) s = .next t ∧ performAction exec (.wr b w) t = .next r ∧
      performAction exec (.wr b w) s = .next u ∧ performAction exec (.wr a v) u = .next r

/-- R48(a), with the model's own fields (log 1, log 3, log 7): a step takes exactly the action it performs off the host's script,
and hands the host the byte of a read and nothing otherwise. -/
def Obligations.StepTakesOneHostAction : Prop :=
  ∀ (s : State) (x : HostAction) (rest : List HostAction), s.script = x :: rest →
    ∃ t, step s = .next t ∧ t.script = rest ∧
      t.reads = s.reads ++ (match x with | .rd a => [readReg s a] | .wr _ _ => [] | .reset => [])

/-- R166: every command terminates, and a run of any length from any state stops nowhere. The run is over the model's script (log
1). -/
def Obligations.EveryCommandAndRunTerminates : Prop :=
  (∀ (i : Instr) (s : State), ∃ t, exec i s = .next t) ∧ ∀ (k : Nat) (s : State), SafeRun k s

/-! ### Reset -/

/-- R160: `RESET` sets every register to zero. -/
def Obligations.ResetActionZeroesEveryRegister : Prop :=
  ∀ s : State, ∃ t, performAction exec .reset s = .next t ∧ (∀ i : Fin 16, t.ident[i] = 0x00#8) ∧ t.fl = 0x00#8 ∧
    t.slen = 0x00#8 ∧ (∀ k : Fin 22, t.sf[k] = 0x00#8) ∧ t.status = 0x00#8

/-- R32: the registers after reset, and what their values mean: an identifier `ENC` rejects, a length `DEC`, `TRYDEC` and `B64D`
reject, characters outside the alphabet, no command run. -/
def Obligations.ResetStateIsAllZero : Prop :=
  State.reset.ident = allZero ∧ State.reset.fl = 0x00#8 ∧ State.reset.slen = 0x00#8 ∧
  (∀ k : Fin 22, State.reset.sf[k] = 0x00#8 ∧ inAlpha State.reset.sf[k] = false) ∧ State.reset.status = 0x00#8 ∧
  statusOk State.reset.status = false ∧ statusErr State.reset.status = 0#3 ∧
  exec .enc State.reset = .next { State.reset with status := 0x08#8 } ∧
  exec .dec State.reset = .next { State.reset with status := 0x02#8 } ∧
  exec .trydec State.reset = .next { State.reset with status := 0x00#8 } ∧
  exec .b64d State.reset = .next { State.reset with status := 0x02#8 }

/-- R162, which the spec marks as derived from R32, R83, R84, R85 and R98 to R101: the three unit-level commands that succeed on
the reset state, and that no composed command does. -/
def Obligations.CommandsOnResetOperands : Prop :=
  exec .pack State.reset = .next { State.reset with status := 0x01#8 } ∧
  exec .unpack State.reset = .next { State.reset with ident := emptySentinel, status := 0x01#8 } ∧
  exec .b64e State.reset =
    .next { State.reset with sf := Vector.replicate 22 0x41#8, slen := 22#8, status := 0x01#8 } ∧
  ∀ i : Instr, i = .enc ∨ i = .dec ∨ i = .trydec → ∃ t, exec i State.reset = .next t ∧ t.status ≠ 0x01#8

/-! ### The seven commands -/

/-- R83 `PACK`: the flags go over the marker bits, or RangeError. -/
def Obligations.PackWritesFlagsOverMarkers : Prop :=
  encode .pack = 0x04#8 ∧ ∀ s : State,
    (s.fl.extractLsb 7 6 = 0b00#2 → exec .pack s = .next
      { s with
        ident := (s.ident.set 7 (s.fl.extractLsb 3 0 ++ s.ident[7].extractLsb 3 0)).set 8
          (s.fl.extractLsb 5 4 ++ s.ident[8].extractLsb 5 0)
        status := 0x01#8 }) ∧
    (s.fl.extractLsb 7 6 ≠ 0b00#2 → exec .pack s = .next { s with status := 0x06#8 })

/-- R99 `UNPACK`: the marker bits go to `FL` and the markers are restored. -/
def Obligations.UnpackExtractsFlagsAndRestoresMarkers : Prop :=
  encode .unpack = 0x05#8 ∧ ∀ s : State, exec .unpack s = .next
    { s with
      fl := 0b00#2 ++ s.ident[8].extractLsb 7 6 ++ s.ident[7].extractLsb 7 4
      ident := (s.ident.set 7 (0b0100#4 ++ s.ident[7].extractLsb 3 0)).set 8 (0b10#2 ++ s.ident[8].extractLsb 5 0)
      status := 0x01#8 }

/-- R84 `B64E`: every identifier is encoded; the last character is `A`, `Q`, `g` or `w` according to `ID[15][1:0]`. -/
def Obligations.B64eEncodesEveryIdentifier : Prop :=
  encode .b64e = 0x06#8 ∧ ∀ s : State,
    exec .b64e s = .next { s with sf := b64e s.ident, slen := 22#8, status := 0x01#8 } ∧
    (s.ident[15].extractLsb 1 0 = 0#2 → (b64e s.ident)[21] = 0x41#8) ∧
    (s.ident[15].extractLsb 1 0 = 1#2 → (b64e s.ident)[21] = 0x51#8) ∧
    (s.ident[15].extractLsb 1 0 = 2#2 → (b64e s.ident)[21] = 0x67#8) ∧
    (s.ident[15].extractLsb 1 0 = 3#2 → (b64e s.ident)[21] = 0x77#8)

/-- R98 `B64D`: the length check, the alphabet check, then sixteen bytes. -/
def Obligations.B64dChecksAndDecodes : Prop :=
  encode .b64d = 0x07#8 ∧ ∀ s : State,
    (s.slen ≠ 22#8 → exec .b64d s = .next { s with status := 0x02#8 }) ∧
    (s.slen = 22#8 → (∃ k : Fin 22, inAlpha s.sf[k] = false) → exec .b64d s = .next { s with status := 0x04#8 }) ∧
    (s.slen = 22#8 → (∀ k : Fin 22, inAlpha s.sf[k] = true) →
      exec .b64d s = .next { s with ident := bytesOf (sextetsOfChars s.sf), status := 0x01#8 })

/-- R85 `ENC`: the range check, the identifier check, then the text of the packed identifier; `ID` and `FL` stay. -/
def Obligations.EncChecksAndEncodes : Prop :=
  encode .enc = 0x01#8 ∧ ∀ s : State,
    (s.fl.extractLsb 7 6 ≠ 0b00#2 → exec .enc s = .next { s with status := 0x06#8 }) ∧
    (s.fl.extractLsb 7 6 = 0b00#2 → s.ident = allZero ∨ s.ident = emptySentinel →
      exec .enc s = .next { s with status := 0x08#8 }) ∧
    (s.fl.extractLsb 7 6 = 0b00#2 → s.ident ≠ allZero → s.ident ≠ emptySentinel → exec .enc s = .next
      { s with sf := b64e (pack s.ident (s.fl.extractLsb 5 0)), slen := 22#8, status := 0x01#8 })

/-- R100 `DEC`: the length check, the alphabet check, the EmptySentinel check, then the identifier and the flags. -/
def Obligations.DecChecksAndDecodes : Prop :=
  encode .dec = 0x02#8 ∧ ∀ s : State,
    (s.slen ≠ 22#8 → exec .dec s = .next { s with status := 0x02#8 }) ∧
    (s.slen = 22#8 → (∃ k : Fin 22, inAlpha s.sf[k] = false) → exec .dec s = .next { s with status := 0x04#8 }) ∧
    (s.slen = 22#8 → (∀ k : Fin 22, inAlpha s.sf[k] = true) → ∀ b, b = bytesOf (sextetsOfChars s.sf) →
      (normalizeMarkers b = emptySentinel → exec .dec s = .next { s with status := 0x08#8 }) ∧
      (normalizeMarkers b ≠ emptySentinel → exec .dec s = .next
        { s with
          ident := normalizeMarkers b
          fl := 0b00#2 ++ b[8].extractLsb 7 6 ++ b[7].extractLsb 7 4
          status := 0x01#8 }))

/-- R101 `TRYDEC`: as `DEC`, with `STATUS <- 0x00` in place of every error. -/
def Obligations.TrydecProbes : Prop :=
  encode .trydec = 0x03#8 ∧ ∀ s : State,
    (s.slen ≠ 22#8 → exec .trydec s = .next { s with status := 0x00#8 }) ∧
    (s.slen = 22#8 → (∃ k : Fin 22, inAlpha s.sf[k] = false) → exec .trydec s = .next { s with status := 0x00#8 }) ∧
    (s.slen = 22#8 → (∀ k : Fin 22, inAlpha s.sf[k] = true) → ∀ b, b = bytesOf (sextetsOfChars s.sf) →
      (normalizeMarkers b = emptySentinel → exec .trydec s = .next { s with status := 0x00#8 }) ∧
      (normalizeMarkers b ≠ emptySentinel → exec .trydec s = .next
        { s with
          ident := normalizeMarkers b
          fl := 0b00#2 ++ b[8].extractLsb 7 6 ++ b[7].extractLsb 7 4
          status := 0x01#8 }))

/-- R140, R144: the value of `STATUS` and the code of every error kind, its exact cause, and the commands that raise it. -/
def Obligations.ErrorKindsByExactCause : Prop :=
  (∀ (i : Instr) (s : State), ∃ t, exec i s = .next t ∧
    (t.status = 0x02#8 ↔ (i = .dec ∨ i = .b64d) ∧ s.slen ≠ 22#8) ∧
    (t.status = 0x04#8 ↔ (i = .dec ∨ i = .b64d) ∧ s.slen = 22#8 ∧ ∃ k : Fin 22, inAlpha s.sf[k] = false) ∧
    (t.status = 0x06#8 ↔ (i = .enc ∨ i = .pack) ∧ s.fl.extractLsb 7 6 ≠ 0b00#2) ∧
    (t.status = 0x08#8 ↔
      (i = .enc ∧ s.fl.extractLsb 7 6 = 0b00#2 ∧ (s.ident = allZero ∨ s.ident = emptySentinel)) ∨
      (i = .dec ∧ s.slen = 22#8 ∧ (∀ k : Fin 22, inAlpha s.sf[k] = true) ∧
        normalizeMarkers (bytesOf (sextetsOfChars s.sf)) = emptySentinel)) ∧
    (t.status = 0x00#8 ↔ i = .trydec ∧ (s.slen ≠ 22#8 ∨ (∃ k : Fin 22, inAlpha s.sf[k] = false) ∨
      normalizeMarkers (bytesOf (sextetsOfChars s.sf)) = emptySentinel)) ∧
    t.status ≠ 0x0A#8 ∧ t.status ≠ 0x0C#8 ∧ t.status ≠ 0x0E#8) ∧
  (∀ (v : Byte) (s : State), ∃ t, performAction exec (.wr 0x13#6 v) s = .next t ∧
    (t.status = 0x0C#8 ↔ v.toNat = 0 ∨ 8 ≤ v.toNat)) ∧
  statusErr 0x02#8 = 1#3 ∧ statusErr 0x04#8 = 2#3 ∧ statusErr 0x06#8 = 3#3 ∧ statusErr 0x08#8 = 4#3 ∧
  statusErr 0x0A#8 = 5#3 ∧ statusErr 0x0C#8 = 6#3

/-! ### Data encodings -/

/-- R67, with the table as log 5 fixes it: the formula of `ALPHA`, its image, its inverse, and the bytes outside. -/
def Obligations.AlphabetTable : Prop :=
  (∀ v : Sextet,
    (v.toNat ≤ 25 → (alpha v).toNat = 0x41 + v.toNat) ∧
    (26 ≤ v.toNat ∧ v.toNat ≤ 51 → (alpha v).toNat = 0x61 + (v.toNat - 26)) ∧
    (52 ≤ v.toNat ∧ v.toNat ≤ 61 → (alpha v).toNat = 0x30 + (v.toNat - 52)) ∧
    (v = 62#6 → alpha v = 0x2D#8) ∧ (v = 63#6 → alpha v = 0x5F#8) ∧
    inAlpha (alpha v) = true ∧ alphaInv (alpha v) = v) ∧
  (∀ x : Byte, inAlpha x = true → alpha (alphaInv x) = x) ∧
  (∀ x : Byte, x = 0x2B#8 ∨ x = 0x2F#8 ∨ x = 0x3D#8 ∨ x = 0x25#8 ∨ x = 0x20#8 ∨ x = 0x00#8 ∨ 0x80 ≤ x.toNat →
    inAlpha x = false)

/-- R68: the sextets of an identifier, as slices of `V ∥ 0b0000` and as the four characters of each three bytes. The bit order and
the table are those log 5 presumes. -/
def Obligations.SextetLayout : Prop :=
  ∀ b : Identifier,
    (∀ (k : Nat) (_ : k < 22), (b64e b)[k] = alpha (((b[0] ++ b[1] ++ b[2] ++ b[3] ++ b[4] ++ b[5] ++ b[6] ++ b[7] ++
      b[8] ++ b[9] ++ b[10] ++ b[11] ++ b[12] ++ b[13] ++ b[14] ++ b[15] ++ 0b0000#4 : BitVec 132)).extractLsb'
        (126 - 6 * k) 6)) ∧
    (∀ (j : Nat) (_ : j < 5),
      (b64e b)[4 * j] = alpha (b[3 * j].extractLsb 7 2) ∧
      (b64e b)[4 * j + 1] = alpha (b[3 * j].extractLsb 1 0 ++ b[3 * j + 1].extractLsb 7 4) ∧
      (b64e b)[4 * j + 2] = alpha (b[3 * j + 1].extractLsb 3 0 ++ b[3 * j + 2].extractLsb 7 6) ∧
      (b64e b)[4 * j + 3] = alpha (b[3 * j + 2].extractLsb 5 0)) ∧
    (b64e b)[20] = alpha (b[15].extractLsb 7 2) ∧
    (b64e b)[21] = alpha (b[15].extractLsb 1 0 ++ 0b0000#4)

/-- R95 step 4 with the groups of R68 read backwards: the bytes of a well-formed string, each three of them from four characters;
the spare bits reach none (log 6). -/
def Obligations.DecodedByteLayout : Prop :=
  ∀ cs : Characters, (∀ k : Fin 22, inAlpha cs[k] = true) → ∃ b : Identifier, b64d 22#8 cs = .ok b ∧
    (∀ (j : Nat) (_ : j < 5),
      b[3 * j] = alphaInv cs[4 * j] ++ (alphaInv cs[4 * j + 1]).extractLsb 5 4 ∧
      b[3 * j + 1] = (alphaInv cs[4 * j + 1]).extractLsb 3 0 ++ (alphaInv cs[4 * j + 2]).extractLsb 5 2 ∧
      b[3 * j + 2] = (alphaInv cs[4 * j + 2]).extractLsb 1 0 ++ alphaInv cs[4 * j + 3]) ∧
    b[15] = alphaInv cs[20] ++ (alphaInv cs[21]).extractLsb 5 4

/-- The last sentence of R68, which the spec marks as derived from R68 and R70: the flags reach characters 9 and 10 and no other.
-/
def Obligations.FlagsReachCharactersNineAndTen : Prop :=
  ∀ (b : Identifier) (f g : FlagsValue),
    (∀ (k : Nat) (_ : k < 22), k ≠ 9 → k ≠ 10 → (b64e (pack b f))[k] = (b64e (pack b g))[k]) ∧
    (alphaInv (b64e (pack b f))[9]).extractLsb 3 0 = f.extractLsb 3 0 ∧
    (alphaInv (b64e (pack b f))[10]).extractLsb 1 0 = f.extractLsb 5 4

/-- R67, D11: the base64 law for ANY table of characters that has an inverse, the model's fixed table (log 5) being one. -/
def Obligations.Base64LawForAnyTable : Prop :=
  ∀ (table : Sextet → Byte) (inverse : Byte → Sextet), (∀ v, inverse (table v) = v) → ∀ b : Identifier,
    bytesOf (Vector.ofFn fun k : Fin 22 => inverse ((Vector.ofFn fun j : Fin 22 => table (sextetsOf b)[j])[k])) = b

/-- R133, which the spec marks as derived from R81 and R95: the base64 units are mutually inverse one way; every sixteen bytes
have sixteen strings, one for each value of the spare bits. -/
def Obligations.Base64UnitsInverseOneWay : Prop :=
  (∀ b : Identifier, b64d 22#8 (b64e b) = .ok b) ∧
  (∀ b b' : Identifier, b64e b = b64e b' → b = b') ∧
  (∀ (cs : Characters) (b : Identifier), b64d 22#8 cs = .ok b →
    (∀ (k : Nat) (_ : k < 21), (b64e b)[k] = cs[k]) ∧
    ((b64e b)[21] ≠ cs[21] ↔ (alphaInv cs[21]).extractLsb 3 0 ≠ 0b0000#4)) ∧
  (∀ (b : Identifier) (x : BitVec 4),
    ∃! cs : Characters, b64d 22#8 cs = .ok b ∧ (alphaInv cs[21]).extractLsb 3 0 = x)

/-- R23: `normalize` and `payload_zero` byte by byte, and the four facts the spec marks there as derived from R22 and R23. -/
def Obligations.NormalizeAndPayload : Prop :=
  (∀ b : Identifier, (normalizeMarkers b)[7] = 0b0100#4 ++ b[7].extractLsb 3 0 ∧
    (normalizeMarkers b)[8] = 0b10#2 ++ b[8].extractLsb 5 0 ∧
    ∀ (i : Nat) (_ : i < 16), i ≠ 7 → i ≠ 8 → (normalizeMarkers b)[i] = b[i]) ∧
  (∀ b : Identifier, payloadZero b = true ↔ (∀ (i : Nat) (_ : i < 16), i ≠ 7 → i ≠ 8 → b[i] = 0x00#8) ∧
    b[7].extractLsb 3 0 = 0#4 ∧ b[8].extractLsb 5 0 = 0#6) ∧
  (∀ b : Identifier, normalizeMarkers b = emptySentinel ↔ payloadZero b = true) ∧
  (∀ b : Identifier, normalizeMarkers (normalizeMarkers b) = normalizeMarkers b) ∧
  (∀ b : Identifier, normalizeMarkers b ≠ allZero) ∧
  (∀ b : Identifier, payloadZero b = true ↔ ∃! m : FlagsValue, b = pack allZero m)

/-- R135, which the spec marks as derived from R80 and R96: `pack` and `unpack` are a bijection between (canonical identifier,
flags) pairs and sixteen bytes. -/
def Obligations.FlagsCodecIsABijection : Prop :=
  (∀ (b : Identifier) (f : FlagsValue), unpack (pack b f) = (normalizeMarkers b, f)) ∧
  (∀ b : Identifier, pack (unpack b).1 (unpack b).2 = b) ∧
  (∀ b : Identifier, ∃! p : Identifier × FlagsValue, canonical p.1 = true ∧ pack p.1 p.2 = b)

/-- R24: the readings of the range check, which the spec marks as derived from the bit patterns, and that a command that writes
`FL` writes a value in range. -/
def Obligations.FlagsRangeCheck : Prop :=
  (∀ x : Byte, (flagsInRange x = true ↔ x.toNat ≤ 63) ∧ (flagsInRange x = true ↔ 0 ≤ x.toInt ∧ x.toInt ≤ 63)) ∧
  (∀ (i : Instr) (s : State), ∃ t, exec i s = .next t ∧ (t.fl = s.fl ∨ t.fl.extractLsb 7 6 = 0b00#2))

/-! ### Laws of the codec -/

/-- R123, which the spec marks as derived from R80 to R82 and R95 to R97: the round trip, of the functions and of the registers.
-/
def Obligations.EncodeThenDecodeRoundTrip : Prop :=
  (∀ (g : Identifier) (f : FlagsValue), payloadZero g = false →
    ∃ cs, codecEncode g (f.setWidth 8) = .ok cs ∧ codecDecode 22#8 cs = .ok (normalizeMarkers g, f)) ∧
  (∀ s : State, payloadZero s.ident = false → s.fl.toNat ≤ 63 →
    ∃ t u, exec .enc s = .next t ∧ t.status = 0x01#8 ∧ exec .dec t = .next u ∧ u.status = 0x01#8 ∧
      u.ident = normalizeMarkers s.ident ∧ u.fl = s.fl)

/-- R124, which the spec marks as derived from R82 and R97: the 62 identifiers that encode but do not decode, and that there are
62. -/
def Obligations.ZeroPayloadEncodesButDoesNotDecode : Prop :=
  (∀ (g : Identifier) (f : FlagsValue), payloadZero g = true → g ≠ allZero → g ≠ emptySentinel →
    codecEncode g (f.setWidth 8) = .ok (b64e (pack allZero f)) ∧
    codecDecode 22#8 (b64e (pack allZero f)) = .error .invalidValue) ∧
  (∀ g : Identifier, payloadZero g = true ∧ g ≠ allZero ∧ g ≠ emptySentinel ↔
    ∃ m : FlagsValue, m ≠ 0#6 ∧ m ≠ 36#6 ∧ g = pack allZero m)

/-- R125, R126, which the spec marks as derived from R67, R69 and R81: the length and the characters of every encoding. -/
def Obligations.EncodingShape : Prop :=
  (∀ (g : Identifier) (fl : Byte) (cs : Characters), codecEncode g fl = .ok cs → (∀ k : Fin 22, inAlpha cs[k] = true) ∧
    (cs[21] = 0x41#8 ∨ cs[21] = 0x51#8 ∨ cs[21] = 0x67#8 ∨ cs[21] = 0x77#8)) ∧
  (∀ b : Identifier, (∀ k : Fin 22, inAlpha (b64e b)[k] = true) ∧
    ((b64e b)[21] = 0x41#8 ∨ (b64e b)[21] = 0x51#8 ∨ (b64e b)[21] = 0x67#8 ∨ (b64e b)[21] = 0x77#8)) ∧
  (∀ s : State, ∃ t, exec .enc s = .next t ∧ (t.status = 0x01#8 → t.slen = 22#8)) ∧
  (∀ s : State, ∃ t, exec .b64e s = .next t ∧ t.slen = 22#8)

/-- R127, R128, which the spec marks as derived from R82, R83 and R85: a flags value out of range is refused whatever the
identifier; AllZero and EmptySentinel are refused whatever the flags in range. -/
def Obligations.EncodeRejections : Prop :=
  (∀ s : State, 64 ≤ s.fl.toNat → codecEncode s.ident s.fl = .error .range ∧
    exec .enc s = .next { s with status := 0x06#8 } ∧ exec .pack s = .next { s with status := 0x06#8 }) ∧
  (∀ s : State, s.fl.toNat ≤ 63 → s.ident = allZero ∨ s.ident = emptySentinel →
    codecEncode s.ident s.fl = .error .invalidValue ∧ exec .enc s = .next { s with status := 0x08#8 })

/-- R129, R130, which the spec marks as derived from R95 and R97: what a decode refuses. The strings that decode to an all-zero
payload are the text of the 64 settings of the flags over AllZero with any of sixteen last characters, 1024 in all, twenty-two `A`
among them. -/
def Obligations.DecodeRejections : Prop :=
  (∀ (n : Byte) (cs : Characters), n ≠ 22#8 → codecDecode n cs = .error .length ∧ b64d n cs = .error .length) ∧
  (∀ cs : Characters, (∃ k : Fin 22, inAlpha cs[k] = false) →
    codecDecode 22#8 cs = .error .format ∧ b64d 22#8 cs = .error .format) ∧
  (∀ cs : Characters, codecDecode 22#8 cs = .error .invalidValue ↔
    ∃ (f : FlagsValue) (x : BitVec 4), cs = (b64e (pack allZero f)).set 21 (alpha (0b00#2 ++ x))) ∧
  codecDecode 22#8 (Vector.replicate 22 0x41#8) = .error .invalidValue ∧
  codecDecode 22#8 (b64e emptySentinel) = .error .invalidValue

/-- R131, R132, which the spec marks as derived from R82, R96 and R97: a decoded identifier carries the canonical markers and is
never AllZero or EmptySentinel; neither is an identifier `ENC` accepts. `B64D` and `UNPACK` make no such check. -/
def Obligations.DecodedIdentifiersAreCanonical : Prop :=
  (∀ (n : Byte) (cs : Characters) (g : Identifier) (f : FlagsValue), codecDecode n cs = .ok (g, f) →
    canonical g = true ∧ g ≠ allZero ∧ g ≠ emptySentinel) ∧
  (∀ (g : Identifier) (fl : Byte) (cs : Characters), codecEncode g fl = .ok cs → g ≠ allZero ∧ g ≠ emptySentinel) ∧
  (∀ (i : Instr) (s : State), i = .dec ∨ i = .trydec ∨ i = .unpack → ∃ t, exec i s = .next t ∧
    (t.status = 0x01#8 → t.ident[7].extractLsb 7 4 = 0b0100#4 ∧ t.ident[8].extractLsb 7 6 = 0b10#2 ∧
      t.fl.toNat ≤ 63)) ∧
  (∃ s t, exec .b64d s = .next t ∧ t.status = 0x01#8 ∧ t.ident = allZero) ∧
  (∃ s t, exec .unpack s = .next t ∧ t.status = 0x01#8 ∧ t.ident = emptySentinel)

/-- R134, which the spec marks as derived from R83 to R85 and R98 to R101: the composed commands are the units in sequence, with
the differences R134 lists. -/
def Obligations.ComposedCommandsAreUnitsInSequence : Prop :=
  (∀ s : State, ∃ t, exec .enc s = .next t ∧
    (t.status = 0x01#8 → t.ident = s.ident ∧ ∃ p q, exec .pack s = .next p ∧ exec .b64e p = .next q ∧
      q.status = 0x01#8 ∧ q.sf = t.sf ∧ q.slen = t.slen ∧ q.ident = pack s.ident (s.fl.extractLsb 5 0)) ∧
    (t.status = 0x08#8 → ∃ p q, exec .pack s = .next p ∧ p.status = 0x01#8 ∧ exec .b64e p = .next q ∧
      q.status = 0x01#8) ∧
    (s.fl.extractLsb 7 6 ≠ 0b00#2 → t.status = 0x06#8 ∧ ∃ p, exec .pack s = .next p ∧ p.status = 0x06#8)) ∧
  (∀ s : State, ∃ t, exec .dec s = .next t ∧
    (t.status = 0x01#8 → ∃ p q, exec .b64d s = .next p ∧ exec .unpack p = .next q ∧ q.ident = t.ident ∧ q.fl = t.fl) ∧
    (t.status = 0x02#8 ∨ t.status = 0x04#8 → ∃ p, exec .b64d s = .next p ∧ p.status = t.status ∧ p.ident = s.ident) ∧
    (t.status = 0x08#8 → ∃ p q, exec .b64d s = .next p ∧ p.status = 0x01#8 ∧ exec .unpack p = .next q ∧
      q.status = 0x01#8 ∧ q.ident = emptySentinel))

/-- R137, which the spec marks as derived from R100 and R101: `TRYDEC` and `DEC` agree. -/
def Obligations.TrydecAgreesWithDec : Prop :=
  ∀ s : State, ∃ t u, exec .dec s = .next t ∧ exec .trydec s = .next u ∧
    (u.status = 0x01#8 ↔ t.status = 0x01#8) ∧
    (t.status = 0x01#8 → u.ident = t.ident ∧ u.fl = t.fl) ∧
    (t.status ≠ 0x01#8 → t.ident = s.ident ∧ t.fl = s.fl ∧ u.ident = s.ident ∧ u.fl = s.fl ∧
      (t.status = 0x02#8 ∨ t.status = 0x04#8 ∨ t.status = 0x08#8) ∧ u.status = 0x00#8)

/-! ### Whole-machine rules -/

/-- R27: every step, whatever the host does, leaves `STATUS` with one of the seven values R27 lists. The step and the host's
script are the model's choice (log 1). -/
def Obligations.EveryStepKeepsStatusLegal : Prop := ∀ s t : State, s.Inv → step s = .next t → t.Inv

/-- R27, R32: the reset state meets the invariant. -/
def Obligations.ResetStateStatusLegal : Prop := State.reset.Inv

/-- R143: a command that does not succeed has written nothing but `STATUS`. -/
def Obligations.FailedCommandWritesStatusOnly : Prop :=
  ∀ (i : Instr) (s : State), ∃ t, exec i s = .next t ∧
    (t.status ≠ 0x01#8 → SameData s t ∧ t = { s with status := t.status })

/-- R34, the write column, which the spec marks as derived from the command rules: no command writes a register outside its write
set, nor anything of the host's. -/
def Obligations.CommandWriteSets : Prop :=
  ∀ (i : Instr) (s : State), ∃ t, exec i s = .next t ∧ SameHost s t ∧
    (i = .enc ∨ i = .b64e → t.ident = s.ident ∧ t.fl = s.fl) ∧
    (i = .dec ∨ i = .trydec → t.slen = s.slen ∧ t.sf = s.sf) ∧
    (i = .b64d → t.slen = s.slen ∧ t.sf = s.sf ∧ t.fl = s.fl) ∧
    (i = .pack → t.fl = s.fl) ∧
    (i = .pack ∨ i = .unpack → t.slen = s.slen ∧ t.sf = s.sf ∧
      ∀ (j : Nat) (_ : j < 16), j ≠ 7 → j ≠ 8 → t.ident[j] = s.ident[j])

/-- R136 with the read column of R34, both marked as derived (R31 and the command rules): what a command writes, and `STATUS`,
depend on nothing but the registers it reads. -/
def Obligations.CommandsDependOnlyOnWhatTheyRead : Prop :=
  ∀ s s' : State,
    (s.ident = s'.ident → s.fl = s'.fl → ∃ t t', exec .enc s = .next t ∧ exec .enc s' = .next t' ∧
      t.status = t'.status ∧ (t.status = 0x01#8 → t.sf = t'.sf ∧ t.slen = t'.slen)) ∧
    (s.ident[7] = s'.ident[7] → s.ident[8] = s'.ident[8] → s.fl = s'.fl →
      ∃ t t', exec .pack s = .next t ∧ exec .pack s' = .next t' ∧ t.status = t'.status ∧
        t.ident[7] = t'.ident[7] ∧ t.ident[8] = t'.ident[8]) ∧
    (s.ident[7] = s'.ident[7] → s.ident[8] = s'.ident[8] →
      ∃ t t', exec .unpack s = .next t ∧ exec .unpack s' = .next t' ∧ t.status = t'.status ∧ t.fl = t'.fl ∧
        t.ident[7] = t'.ident[7] ∧ t.ident[8] = t'.ident[8]) ∧
    (s.ident = s'.ident → ∃ t t', exec .b64e s = .next t ∧ exec .b64e s' = .next t' ∧ t.status = t'.status ∧
      t.sf = t'.sf ∧ t.slen = t'.slen) ∧
    (s.slen = s'.slen → (s.slen = 22#8 → s.sf = s'.sf) →
      (∃ t t', exec .b64d s = .next t ∧ exec .b64d s' = .next t' ∧ t.status = t'.status ∧
        (t.status = 0x01#8 → t.ident = t'.ident)) ∧
      (∃ t t', exec .dec s = .next t ∧ exec .dec s' = .next t' ∧ t.status = t'.status ∧
        (t.status = 0x01#8 → t.ident = t'.ident ∧ t.fl = t'.fl)) ∧
      (∃ t t', exec .trydec s = .next t ∧ exec .trydec s' = .next t' ∧ t.status = t'.status ∧
        (t.status = 0x01#8 → t.ident = t'.ident ∧ t.fl = t'.fl)))

/-- R47, the sentences the spec marks there as derived from R83 and R99: a command run twice in a row leaves what it left the
first time, but for `UNPACK`, whose second run leaves `FL` = 36. -/
def Obligations.RepeatedCommands : Prop :=
  (∀ (i : Instr) (s : State), i ≠ .unpack → ∃ t, exec i s = .next t ∧ exec i t = .next t) ∧
  (∀ s : State, ∃ t, exec .unpack s = .next t ∧ exec .unpack t = .next { t with fl := 36#8 })

/-! ### Host scripts and the FlagsAdapter -/

/-- R66: the expansion of each pseudo-instruction. -/
def Obligations.PseudoInstructionExpansions : Prop :=
  (∀ bytes : List Nat, bytes.length = 16 → expandLine (.ldid bytes) =
    (List.range 16).map fun i => HostAction.wr (BitVec.ofNat 6 i) (BitVec.ofNat 8 (bytes.getD i 0))) ∧
  (∀ v : Nat, v < 256 → expandLine (.ldfl v) = [.wr 0x10#6 (BitVec.ofNat 8 v)]) ∧
  (∀ chars : List Nat, chars.length ≤ 255 → expandLine (.ldsf chars) =
    ((List.range (min chars.length 22)).map fun k =>
      HostAction.wr (BitVec.ofNat 6 (0x20 + k)) (BitVec.ofNat 8 (chars.getD k 0))) ++
      [.wr 0x11#6 (BitVec.ofNat 8 chars.length)]) ∧
  expandLine .rdid = (List.range 16).map (fun i => HostAction.rd (BitVec.ofNat 6 i)) ∧
  expandLine .rdfl = [.rd 0x10#6] ∧
  expandLine .rdsf = .rd 0x11#6 :: (List.range 22).map (fun k => HostAction.rd (BitVec.ofNat 6 (0x20 + k))) ∧
  expandLine .rdst = [.rd 0x12#6]

/-- R66, R42: `LDID` leaves the sixteen bytes it lists in `ID` and changes no other register. The script and its steps are the
model's choice (log 1). -/
def Obligations.LdidLoadsTheIdentifier : Prop :=
  ∀ (s : State) (bytes : List Nat) (rest : List HostAction), bytes.length = 16 →
    s.script = expandLine (.ldid bytes) ++ rest →
    Sys2Proof.core.run 16 s = .next
      { s with ident := Vector.ofFn fun i : Fin 16 => BitVec.ofNat 8 (bytes.getD i.val 0), script := rest }

/-- R115: the eight recognized kinds; over any other the adapter fails before any host action, and no command writes the kind.
That the failure is answered by code 5 is the model's reading (log 13, DEDUCED). -/
def Obligations.UnsupportedKindNeverReachesTheBlock : Prop :=
  (∀ k : IntKind, recognizedKind k = true ↔ k = .i8 ∨ k = .u8 ∨ k = .i16 ∨ k = .u16 ∨ k = .i32 ∨ k = .u32 ∨ k = .i64 ∨
    k = .u64) ∧
  (∀ (k : IntKind) (g : Identifier) (v : Int) (c : List Byte) (s : State), recognizedKind k = false →
    encodeWithEnum g ⟨k, v⟩ s = .next (s, .error 5#3) ∧ decodeWithEnum k c s = .next (s, .error 5#3)) ∧
  (∀ (i : Instr) (s : State), ∃ t, exec i s = .next t ∧ statusErr t.status ≠ 5#3)

/-- R116, the sentence the spec marks there as derived from R24 and R82, with the byte of log 13 for a value outside 0..255: `ENC`
raises RangeError exactly when the enumeration's value is outside 0..63. -/
def Obligations.PresentedFlagsKeepTheVerdict : Prop :=
  ∀ (s : State) (v : Int),
    (0 ≤ v ∧ v ≤ 255 → ((presentFlags v).toNat : Int) = v) ∧
    (v < 0 ∨ 255 < v → (presentFlags v).extractLsb 7 6 ≠ 0b00#2) ∧
    ∃ t, exec .enc { s with fl := presentFlags v } = .next t ∧ (t.status = 0x06#8 ↔ v < 0 ∨ 63 < v)

/-- R118, which is R123 for the adapter's flags: an enumeration's value in range comes back from `ENC` then `DEC` as it went in.
-/
def Obligations.EnumValueRoundTrip : Prop :=
  ∀ (s : State) (v : Int), 0 ≤ v → v ≤ 63 → payloadZero s.ident = false →
    ∃ t u, exec .enc { s with fl := presentFlags v } = .next t ∧ exec .dec t = .next u ∧ u.status = 0x01#8 ∧
      (u.fl.toNat : Int) = v ∧ u.ident = normalizeMarkers s.ident

/-- R48(a), R65, over the model's script (log 1): stepping through a script's actions is performing them one after another, and
leaves the rest of the script. -/
def Obligations.ScriptRunPerformsItsActions : Prop :=
  ∀ (xs rest : List HostAction) (s : State), s.script = xs ++ rest →
    Sys2Proof.core.run xs.length s = performAll exec xs { s with script := rest }

/-- R116, resting on its sentence marked as derived from R24 and R82, and on the model's lists (log 3) and the byte and the error
codes of log 13: `encodeWithEnum` over a recognized kind answers a value outside 0..63 with RangeError, and otherwise what
`encode` answers; `FL` and `ID` are loaded, and the bytes read are `STATUS` and `SF` alone. -/
def Obligations.EncodeWithEnumAnswersTheCodec : Prop :=
  ∀ (e : EnumValue) (g : Identifier) (s : State), recognizedKind e.kind = true →
    ∃ t r, encodeWithEnum g e s = .next (t, r) ∧ t.fl = presentFlags e.value ∧ t.ident = g ∧ t.script = s.script ∧
      t.reads = s.reads ++ t.status :: t.sf.toList ∧
      (e.value < 0 ∨ 63 < e.value → r = .error 3#3) ∧
      (0 ≤ e.value ∧ e.value ≤ 63 →
        (∀ x, codecEncode g (BitVec.ofInt 8 e.value) = .error x → r = .error (errCode x)) ∧
        (∀ cs, codecEncode g (BitVec.ofInt 8 e.value) = .ok cs → r = .ok cs ∧ t.sf = cs ∧ t.slen = 22#8))

/-- R117, R119, with the model's list of bytes read (log 3) and the length and the error codes of log 13: `decodeWithEnum` over a
recognized kind answers what `decode` answers for the string, the flags as a value of the enumeration, which the kind can hold;
`ID` and `FL` are read on success only. -/
def Obligations.DecodeWithEnumAnswersTheCodec : Prop :=
  ∀ (k : IntKind) (c : List Byte) (s : State), recognizedKind k = true →
    (c.length ≠ 22 → ∃ t, decodeWithEnum k c s = .next (t, .error 1#3) ∧ t.ident = s.ident ∧ t.fl = s.fl ∧
      t.reads = s.reads ++ [0x02#8]) ∧
    (c.length = 22 →
      (∀ x, codecDecode 22#8 (charsOfBytes c) = .error x →
        ∃ t, decodeWithEnum k c s = .next (t, .error (errCode x)) ∧ t.ident = s.ident ∧ t.fl = s.fl ∧
          t.reads = s.reads ++ [errorStatus x]) ∧
      (∀ g f, codecDecode 22#8 (charsOfBytes c) = .ok (g, f) →
        enumBounded ⟨k, (f.toNat : Int)⟩ = true ∧
        ∃ t, decodeWithEnum k c s = .next (t, .ok (g, ⟨k, (f.toNat : Int)⟩)) ∧ t.ident = g ∧ t.fl = 0b00#2 ++ f ∧
          t.reads = s.reads ++ 0x01#8 :: (g.toList ++ [0b00#2 ++ f])))

/-- R118, which is R123, marked as derived by the spec, for the adapter: over a recognized kind, an enumeration value in 0..63
comes back from `encodeWithEnum` then `decodeWithEnum` unchanged, with the normalized identifier, when the identifier's payload is
not zero. -/
def Obligations.EnumAdapterRoundTrip : Prop :=
  ∀ (e : EnumValue) (g : Identifier) (s : State), recognizedKind e.kind = true → 0 ≤ e.value → e.value ≤ 63 →
    payloadZero g = false →
    ∃ t cs u, encodeWithEnum g e s = .next (t, .ok cs) ∧
      decodeWithEnum e.kind cs.toList t = .next (u, .ok (normalizeMarkers g, e))
end

