-- ==== Sys2Proof/Laws/Layout.lean ====
section
/-!
SUPPORT. The bit layouts of Operands.lean read back: bytes and sextets of the concatenated numbers (R68, R95), the alphabet and its
inverse (R67), and the bytes of an identifier whose markers are replaced (R70).
-/

namespace Sys2Proof.Machine

/-- A bit of a concatenation above its low part. -/
theorem getLsbD_append_high {n m i : Nat} (x : BitVec n) (y : BitVec m) (h : m ≤ i) :
    (x ++ y).getLsbD i = x.getLsbD (i - m) := by
  rw [BitVec.getLsbD_append, if_neg (by omega)]

/-- A bit of a concatenation within its low part. -/
theorem getLsbD_append_low {n m i : Nat} (x : BitVec n) (y : BitVec m) (h : i < m) :
    (x ++ y).getLsbD i = y.getLsbD i := by
  rw [BitVec.getLsbD_append, if_pos h]

/-- The same bit of the same number. -/
theorem getLsbD_congr {n i j : Nat} (x : BitVec n) (h : i = j) : x.getLsbD i = x.getLsbD j := by rw [h]

set_option maxRecDepth 2000 in
/-- Byte `i` of the 128-bit number is `b[i]`. -/
theorem byte_of_catBytes (b : Identifier) (i : Fin 16) : (catBytes b).extractLsb' (120 - 8 * i.val) 8 = b[i] := by
  obtain ⟨i, h⟩ := i
  dsimp only [Fin.getElem_fin]
  interval_cases i <;>
  · ext j hj
    rw [BitVec.getElem_extractLsb', ← BitVec.getLsbD_eq_getElem]
    unfold catBytes
    repeat (rw [getLsbD_append_high]; swap; · omega)
    try (rw [getLsbD_append_low]; swap; · omega)
    apply getLsbD_congr
    omega

set_option maxRecDepth 2000 in
/-- Sextet `k` of the 132-bit number is `s[k]`. -/
theorem sextet_of_catSextets (s : Vector Sextet 22) (k : Fin 22) :
    (catSextets s).extractLsb' (126 - 6 * k.val) 6 = s[k] := by
  obtain ⟨k, h⟩ := k
  dsimp only [Fin.getElem_fin]
  interval_cases k <;>
  · ext j hj
    rw [BitVec.getElem_extractLsb', ← BitVec.getLsbD_eq_getElem]
    unfold catSextets
    repeat (rw [getLsbD_append_high]; swap; · omega)
    try (rw [getLsbD_append_low]; swap; · omega)
    apply getLsbD_congr
    omega

/-- Two 128-bit numbers with the same sixteen bytes are equal. -/
theorem eq_of_bytes {x y : BitVec 128}
    (h : ∀ i : Fin 16, x.extractLsb' (120 - 8 * i.val) 8 = y.extractLsb' (120 - 8 * i.val) 8) : x = y := by
  apply BitVec.eq_of_getLsbD_eq
  intro j hj
  have hb := congrArg (fun v => v.getLsbD (j % 8)) (h ⟨15 - j / 8, by omega⟩)
  have e : 120 - 8 * (15 - j / 8) + j % 8 = j := by omega
  have hlt : j % 8 < 8 := by omega
  simpa only [BitVec.getLsbD_extractLsb', hlt, decide_true, Bool.true_and, e] using hb

/-- Two 132-bit numbers with the same 22 sextets are equal. -/
theorem eq_of_sextets {x y : BitVec 132}
    (h : ∀ k : Fin 22, x.extractLsb' (126 - 6 * k.val) 6 = y.extractLsb' (126 - 6 * k.val) 6) : x = y := by
  apply BitVec.eq_of_getLsbD_eq
  intro j hj
  have hb := congrArg (fun v => v.getLsbD (j % 6)) (h ⟨21 - j / 6, by omega⟩)
  have e : 126 - 6 * (21 - j / 6) + j % 6 = j := by omega
  have hlt : j % 6 < 6 := by omega
  simpa only [BitVec.getLsbD_extractLsb', hlt, decide_true, Bool.true_and, e] using hb

/-- The sextets of an identifier put together again are its 128 bits and the four zero bits. -/
theorem catSextets_sextetsOf (b : Identifier) : catSextets (sextetsOf b) = catBytes b ++ 0b0000#4 := by
  apply eq_of_sextets
  intro k
  rw [sextet_of_catSextets]
  simp [sextetsOf]

/-- Dropping the four spare bits leaves the 128-bit number. -/
theorem spare_dropped (v : BitVec 128) (x : BitVec 4) : (v ++ x : BitVec 132).extractLsb 131 4 = v := by
  apply BitVec.eq_of_getLsbD_eq
  intro j hj
  rw [BitVec.getLsbD_extractLsb, BitVec.getLsbD_append]
  simp
  omega

/-- The 128-bit number of the bytes of 22 sextets is the top 128 bits. -/
theorem catBytes_bytesOf (s : Vector Sextet 22) : catBytes (bytesOf s) = (catSextets s).extractLsb 131 4 := by
  apply eq_of_bytes
  intro i
  rw [byte_of_catBytes]
  simp [bytesOf]

/-- Sextets of an identifier give its bytes back: the layout loses nothing. -/
theorem bytesOf_sextetsOf (b : Identifier) : bytesOf (sextetsOf b) = b := by
  ext i hi : 1
  have h := byte_of_catBytes b ⟨i, hi⟩
  simpa [bytesOf, catSextets_sextetsOf, spare_dropped] using h

/-- Bit `n` of the 128-bit number, byte by byte. -/
theorem getLsbD_catBytes (b : Identifier) (n : Nat) (h : n < 128) :
    (catBytes b).getLsbD n = b[15 - n / 8].getLsbD (n % 8) := by
  have hb := congrArg (fun v => v.getLsbD (n % 8)) (byte_of_catBytes b ⟨15 - n / 8, by omega⟩)
  have e : 120 - 8 * (15 - n / 8) + n % 8 = n := by omega
  have hlt : n % 8 < 8 := by omega
  simpa only [BitVec.getLsbD_extractLsb', hlt, decide_true, Bool.true_and, e, Fin.getElem_fin] using hb

/-- Bit `n` of the 132-bit number, sextet by sextet. -/
theorem getLsbD_catSextets (s : Vector Sextet 22) (n : Nat) (h : n < 132) :
    (catSextets s).getLsbD n = s[21 - n / 6].getLsbD (n % 6) := by
  have hb := congrArg (fun v => v.getLsbD (n % 6)) (sextet_of_catSextets s ⟨21 - n / 6, by omega⟩)
  have e : 126 - 6 * (21 - n / 6) + n % 6 = n := by omega
  have hlt : n % 6 < 6 := by omega
  simpa only [BitVec.getLsbD_extractLsb', hlt, decide_true, Bool.true_and, e, Fin.getElem_fin] using hb

/-- Bit `t` of sextet `k` of an identifier: the zero fill below, a bit of a byte above (R68). -/
theorem getLsbD_sextetsOf (b : Identifier) (k t : Nat) (hk : k < 22) (ht : t < 6) :
    (sextetsOf b)[k].getLsbD t =
      if 126 - 6 * k + t < 4 then false
      else b[15 - (126 - 6 * k + t - 4) / 8].getLsbD ((126 - 6 * k + t - 4) % 8) := by
  rw [sextetsOf, Vector.getElem_ofFn, BitVec.getLsbD_extractLsb', BitVec.getLsbD_append]
  simp only [ht, decide_true, Bool.true_and]
  split
  · simp
  · rw [getLsbD_catBytes b _ (by omega)]

/-- Bit `t` of byte `i` of 22 sextets (R95). -/
theorem getLsbD_bytesOf (s : Vector Sextet 22) (i t : Nat) (hi : i < 16) (ht : t < 8) :
    (bytesOf s)[i].getLsbD t = s[21 - (124 - 8 * i + t) / 6].getLsbD ((124 - 8 * i + t) % 6) := by
  rw [bytesOf, Vector.getElem_ofFn, BitVec.getLsbD_extractLsb', BitVec.getLsbD_extractLsb]
  have e : 4 + (120 - 8 * i + t) = 124 - 8 * i + t := by omega
  have hlt : 120 - 8 * i + t < 128 := by omega
  simp only [ht, decide_true, Bool.true_and, e]
  rw [getLsbD_catSextets s _ (by omega)]
  simp
  omega

/-- The characters of a table of sextets, read back. -/
theorem alphaInv_alpha (v : Sextet) : alphaInv (alpha v) = v := by revert v; decide

/-- Every character the table gives is in the alphabet. -/
theorem inAlpha_alpha (v : Sextet) : inAlpha (alpha v) = true := by revert v; decide

/-- On the alphabet the table and its inverse agree. -/
theorem alpha_alphaInv (x : Byte) (h : inAlpha x = true) : alpha (alphaInv x) = x := by revert x; decide

/-- The sextets of the characters of sextets. -/
theorem sextetsOfChars_charsOf (s : Vector Sextet 22) : sextetsOfChars (charsOf s) = s := by
  ext k hk : 1
  simp [sextetsOfChars, charsOf, alphaInv_alpha]

/-- An encoder's output passes the alphabet check. -/
theorem charsOk_charsOf (s : Vector Sextet 22) : charsOk (charsOf s) = true := by
  simp [charsOk, charsOf, inAlpha_alpha]

/-- What the alphabet check says of each character. -/
theorem charsOk_iff (cs : Characters) : charsOk cs = true ↔ ∀ k : Fin 22, inAlpha cs[k] = true := by
  simp [charsOk]

/-- The version byte of an identifier whose markers are replaced. -/
theorem withMarkers_seven (b : Identifier) (lo : BitVec 4) (hi : BitVec 2) :
    (withMarkers b lo hi)[7] = lo ++ b[7].extractLsb 3 0 := by simp [withMarkers]

/-- The variant byte of an identifier whose markers are replaced. -/
theorem withMarkers_eight (b : Identifier) (lo : BitVec 4) (hi : BitVec 2) :
    (withMarkers b lo hi)[8] = hi ++ b[8].extractLsb 5 0 := by simp [withMarkers]

/-- The fourteen other bytes are payload alone and stay. -/
theorem withMarkers_other (b : Identifier) (lo : BitVec 4) (hi : BitVec 2) (i : Nat) (h : i < 16) (h7 : i ≠ 7)
    (h8 : i ≠ 8) : (withMarkers b lo hi)[i] = b[i] := by
  rw [withMarkers, Vector.getElem_set_ne _ _ (Ne.symm h8), Vector.getElem_set_ne _ _ (Ne.symm h7)]

/-- Two identifiers with the same version byte, variant byte and other bytes are equal. -/
theorem identifier_ext {b d : Identifier} (h7 : b[7] = d[7]) (h8 : b[8] = d[8])
    (h : ∀ (i : Nat) (_ : i < 16), i ≠ 7 → i ≠ 8 → b[i] = d[i]) : b = d := by
  apply Vector.ext
  intro i hi
  by_cases e7 : i = 7
  · subst e7; exact h7
  by_cases e8 : i = 8
  · subst e8; exact h8
  exact h i hi e7 e8

/-- The low nibble under any version marker is the payload. -/
theorem low_nibble_append (lo x : BitVec 4) : (lo ++ x : Byte).extractLsb 3 0 = x := by revert lo x; decide

/-- The low six bits under any variant marker are the payload. -/
theorem low_six_append (hi : BitVec 2) (x : BitVec 6) : (hi ++ x : Byte).extractLsb 5 0 = x := by revert hi x; decide

/-- The high nibble over any payload is what was written there. -/
theorem high_nibble_append (lo x : BitVec 4) : (lo ++ x : Byte).extractLsb 7 4 = lo := by revert lo x; decide

/-- The high two bits over any payload are what was written there. -/
theorem high_two_append (hi : BitVec 2) (x : BitVec 6) : (hi ++ x : Byte).extractLsb 7 6 = hi := by revert hi x; decide

/-- Replacing the markers keeps the payload of the version byte. -/
theorem withMarkers_low_nibble (b : Identifier) (lo : BitVec 4) (hi : BitVec 2) :
    (withMarkers b lo hi)[7].extractLsb 3 0 = b[7].extractLsb 3 0 := by
  rw [withMarkers_seven]; exact low_nibble_append _ _

/-- Replacing the markers keeps the payload of the variant byte. -/
theorem withMarkers_low_six (b : Identifier) (lo : BitVec 4) (hi : BitVec 2) :
    (withMarkers b lo hi)[8].extractLsb 5 0 = b[8].extractLsb 5 0 := by
  rw [withMarkers_eight]; exact low_six_append _ _

/-- The version marker after replacing the markers. -/
theorem withMarkers_high_nibble (b : Identifier) (lo : BitVec 4) (hi : BitVec 2) :
    (withMarkers b lo hi)[7].extractLsb 7 4 = lo := by
  rw [withMarkers_seven]; exact high_nibble_append _ _

/-- The variant marker after replacing the markers. -/
theorem withMarkers_high_two (b : Identifier) (lo : BitVec 4) (hi : BitVec 2) :
    (withMarkers b lo hi)[8].extractLsb 7 6 = hi := by
  rw [withMarkers_eight]; exact high_two_append _ _

/-- The flags read from markers just written are the flags written. -/
theorem markerFlags_withMarkers (b : Identifier) (lo : BitVec 4) (hi : BitVec 2) :
    markerFlags (withMarkers b lo hi) = hi ++ lo := by
  rw [markerFlags, withMarkers_high_two, withMarkers_high_nibble]

/-- Replacing the markers twice is replacing them once. -/
theorem withMarkers_withMarkers (b : Identifier) (lo lo' : BitVec 4) (hi hi' : BitVec 2) :
    withMarkers (withMarkers b lo hi) lo' hi' = withMarkers b lo' hi' := by
  apply identifier_ext
  · rw [withMarkers_seven, withMarkers_low_nibble, withMarkers_seven]
  · rw [withMarkers_eight, withMarkers_low_six, withMarkers_eight]
  · intro i h h7 h8
    rw [withMarkers_other _ _ _ i h h7 h8, withMarkers_other _ _ _ i h h7 h8, withMarkers_other _ _ _ i h h7 h8]

end Sys2Proof.Machine
end

