-- ==== Sys2Proof/Laws/State.lean ====
section
/-!
SUPPORT. One lemma per field per named update of the state, each true by rfl, so that no proof unfolds a record update.
-/

namespace Sys2Proof.Machine

@[simp] theorem raise_ident (e : ErrKind) (s : State) : (raise e s).ident = s.ident := rfl
@[simp] theorem raise_fl (e : ErrKind) (s : State) : (raise e s).fl = s.fl := rfl
@[simp] theorem raise_slen (e : ErrKind) (s : State) : (raise e s).slen = s.slen := rfl
@[simp] theorem raise_sf (e : ErrKind) (s : State) : (raise e s).sf = s.sf := rfl
@[simp] theorem raise_status (e : ErrKind) (s : State) : (raise e s).status = errorStatus e := rfl
@[simp] theorem raise_script (e : ErrKind) (s : State) : (raise e s).script = s.script := rfl
@[simp] theorem raise_reads (e : ErrKind) (s : State) : (raise e s).reads = s.reads := rfl

@[simp] theorem done_ident (s : State) : (done s).ident = s.ident := rfl
@[simp] theorem done_fl (s : State) : (done s).fl = s.fl := rfl
@[simp] theorem done_slen (s : State) : (done s).slen = s.slen := rfl
@[simp] theorem done_sf (s : State) : (done s).sf = s.sf := rfl
@[simp] theorem done_status (s : State) : (done s).status = okStatus := rfl
@[simp] theorem done_script (s : State) : (done s).script = s.script := rfl
@[simp] theorem done_reads (s : State) : (done s).reads = s.reads := rfl

@[simp] theorem probeFailed_ident (s : State) : (probeFailed s).ident = s.ident := rfl
@[simp] theorem probeFailed_fl (s : State) : (probeFailed s).fl = s.fl := rfl
@[simp] theorem probeFailed_slen (s : State) : (probeFailed s).slen = s.slen := rfl
@[simp] theorem probeFailed_sf (s : State) : (probeFailed s).sf = s.sf := rfl
@[simp] theorem probeFailed_status (s : State) : (probeFailed s).status = probeFailedStatus := rfl
@[simp] theorem probeFailed_script (s : State) : (probeFailed s).script = s.script := rfl
@[simp] theorem probeFailed_reads (s : State) : (probeFailed s).reads = s.reads := rfl

@[simp] theorem setIdent_ident (b : Identifier) (s : State) : (setIdent b s).ident = b := rfl
@[simp] theorem setIdent_fl (b : Identifier) (s : State) : (setIdent b s).fl = s.fl := rfl
@[simp] theorem setIdent_slen (b : Identifier) (s : State) : (setIdent b s).slen = s.slen := rfl
@[simp] theorem setIdent_sf (b : Identifier) (s : State) : (setIdent b s).sf = s.sf := rfl
@[simp] theorem setIdent_status (b : Identifier) (s : State) : (setIdent b s).status = s.status := rfl
@[simp] theorem setIdent_script (b : Identifier) (s : State) : (setIdent b s).script = s.script := rfl
@[simp] theorem setIdent_reads (b : Identifier) (s : State) : (setIdent b s).reads = s.reads := rfl

@[simp] theorem setFlags_ident (f : FlagsValue) (s : State) : (setFlags f s).ident = s.ident := rfl
@[simp] theorem setFlags_fl (f : FlagsValue) (s : State) : (setFlags f s).fl = flagsByte f := rfl
@[simp] theorem setFlags_slen (f : FlagsValue) (s : State) : (setFlags f s).slen = s.slen := rfl
@[simp] theorem setFlags_sf (f : FlagsValue) (s : State) : (setFlags f s).sf = s.sf := rfl
@[simp] theorem setFlags_status (f : FlagsValue) (s : State) : (setFlags f s).status = s.status := rfl
@[simp] theorem setFlags_script (f : FlagsValue) (s : State) : (setFlags f s).script = s.script := rfl
@[simp] theorem setFlags_reads (f : FlagsValue) (s : State) : (setFlags f s).reads = s.reads := rfl

@[simp] theorem setString_ident (cs : Characters) (s : State) : (setString cs s).ident = s.ident := rfl
@[simp] theorem setString_fl (cs : Characters) (s : State) : (setString cs s).fl = s.fl := rfl
@[simp] theorem setString_slen (cs : Characters) (s : State) : (setString cs s).slen = 22#8 := rfl
@[simp] theorem setString_sf (cs : Characters) (s : State) : (setString cs s).sf = cs := rfl
@[simp] theorem setString_status (cs : Characters) (s : State) : (setString cs s).status = s.status := rfl
@[simp] theorem setString_script (cs : Characters) (s : State) : (setString cs s).script = s.script := rfl
@[simp] theorem setString_reads (cs : Characters) (s : State) : (setString cs s).reads = s.reads := rfl

@[simp] theorem resetRegs_ident (s : State) : (resetRegs s).ident = Vector.replicate 16 0x00#8 := rfl
@[simp] theorem resetRegs_fl (s : State) : (resetRegs s).fl = 0x00#8 := rfl
@[simp] theorem resetRegs_slen (s : State) : (resetRegs s).slen = 0x00#8 := rfl
@[simp] theorem resetRegs_sf (s : State) : (resetRegs s).sf = Vector.replicate 22 0x00#8 := rfl
@[simp] theorem resetRegs_status (s : State) : (resetRegs s).status = 0x00#8 := rfl
@[simp] theorem resetRegs_script (s : State) : (resetRegs s).script = s.script := rfl
@[simp] theorem resetRegs_reads (s : State) : (resetRegs s).reads = s.reads := rfl

@[simp] theorem hostRead_ident (a : Addr) (s : State) : (hostRead a s).ident = s.ident := rfl
@[simp] theorem hostRead_fl (a : Addr) (s : State) : (hostRead a s).fl = s.fl := rfl
@[simp] theorem hostRead_slen (a : Addr) (s : State) : (hostRead a s).slen = s.slen := rfl
@[simp] theorem hostRead_sf (a : Addr) (s : State) : (hostRead a s).sf = s.sf := rfl
@[simp] theorem hostRead_status (a : Addr) (s : State) : (hostRead a s).status = s.status := rfl
@[simp] theorem hostRead_script (a : Addr) (s : State) : (hostRead a s).script = s.script := rfl
@[simp] theorem hostRead_reads (a : Addr) (s : State) : (hostRead a s).reads = s.reads ++ [readReg s a] := rfl

@[simp] theorem issueCommandByte_ident (b : Byte) (s : State) : (issueCommandByte b s).ident = s.ident := rfl
@[simp] theorem issueCommandByte_fl (b : Byte) (s : State) : (issueCommandByte b s).fl = s.fl := rfl
@[simp] theorem issueCommandByte_slen (b : Byte) (s : State) : (issueCommandByte b s).slen = s.slen := rfl
@[simp] theorem issueCommandByte_sf (b : Byte) (s : State) : (issueCommandByte b s).sf = s.sf := rfl
@[simp] theorem issueCommandByte_status (b : Byte) (s : State) : (issueCommandByte b s).status = s.status := rfl
@[simp] theorem issueCommandByte_script (b : Byte) (s : State) : (issueCommandByte b s).script = HostAction.wr 0x13#6 b :: s.script := rfl
@[simp] theorem issueCommandByte_reads (b : Byte) (s : State) : (issueCommandByte b s).reads = s.reads := rfl

end Sys2Proof.Machine
end

