-- ==== Sys2Proof/Laws/Ops.lean ====
section
/-!
SUPPORT. What each shared operation can do, said once: the register map and the decoder read both ways, the pure functions' results by
case, one host action by case, and what a meaning never touches. Proofs cite these instead of unfolding the operations.
-/

namespace Sys2Proof.Machine

/-! ### The register map (R41) -/

/-- The map finds every named location at its address. -/
@[simp] theorem locate_addressOf (l : Location) : locate (addressOf l) = some l := by
  cases l with
  | ident i => revert i; decide
  | sf k => revert k; decide
  | fl => decide
  | slen => decide
  | status => decide
  | cmd => decide

/-- An address the map names is that location's address. -/
theorem addressOf_of_locate : ∀ (a : Addr) (l : Location), locate a = some l → addressOf l = a := by
  have h : ∀ a : Addr, ∀ l ∈ locate a, addressOf l = a := by decide
  exact fun a l e => h a l (by simp [e])

/-- Two addresses that name the same location are the same address. -/
theorem locate_injective (a b : Addr) (l : Location) (ha : locate a = some l) (hb : locate b = some l) : a = b :=
  (addressOf_of_locate a l ha).symm.trans (addressOf_of_locate b l hb)

/-- The location of an `ID` address. -/
theorem locate_ident (a : Addr) (i : Fin 16) (h : a.toNat = i.val) : locate a = some (.ident i) := by
  have e : a = addressOf (.ident i) := BitVec.eq_of_toNat_eq (by simp [addressOf, h]; omega)
  rw [e, locate_addressOf]

/-- The location of an `SF` address. -/
theorem locate_sf (a : Addr) (k : Fin 22) (h : a.toNat = 0x20 + k.val) : locate a = some (.sf k) := by
  have e : a = addressOf (.sf k) := BitVec.eq_of_toNat_eq (by simp [addressOf, h]; omega)
  rw [e, locate_addressOf]

/-- The reserved addresses are in no location. -/
theorem locate_reserved : ∀ a : Addr, (0x14 ≤ a.toNat ∧ a.toNat ≤ 0x1F) ∨ 0x36 ≤ a.toNat → locate a = none := by decide

/-! ### The command decoder (R61, R62) -/

/-- A byte the decoder accepts is the encoding of what it decodes to. -/
theorem encode_of_decode : ∀ (v : Byte) (i : Instr), decode v = .ok i → encode i = v := by
  have h : ∀ v : Byte, (match decode v with | .ok i => encode i == v | .error _ => true) = true := by decide
  intro v i e
  have := h v
  rw [e] at this
  simpa using this

/-- A byte the decoder rejects, it rejects by name. -/
theorem decode_error : ∀ (v : Byte) (r : DecodeReject), decode v = .error r → r = .illegalCommand v := by
  intro v r e
  unfold decode at e
  split at e
  · cases e
  · cases e; rfl

/-- The low byte of an opcode placed as an eight-bit table word is the opcode. -/
theorem tableByte_encode (i : Instr) : tableByte 8 (encode i).toNat = encode i := by cases i <;> decide

/-! ### The pure functions by case -/

/-- R82: what `encode` can answer. -/
theorem codecEncode_cases (b : Identifier) (fl : Byte) :
    (flagsInRange fl = false ∧ codecEncode b fl = .error .range) ∨
    (flagsInRange fl = true ∧ (b = allZero ∨ b = emptySentinel) ∧ codecEncode b fl = .error .invalidValue) ∨
    (flagsInRange fl = true ∧ b ≠ allZero ∧ b ≠ emptySentinel ∧
      codecEncode b fl = .ok (b64e (pack b (flagsValue fl)))) := by
  unfold codecEncode
  split
  · next h => exact .inl ⟨h, rfl⟩
  · next h =>
    split
    · next h' => exact .inr (.inl ⟨by simpa using h, h', rfl⟩)
    · next h' => exact .inr (.inr ⟨by simpa using h, fun e => h' (.inl e), fun e => h' (.inr e), rfl⟩)

/-- R95: what `b64d` can answer. -/
theorem b64d_cases (n : Byte) (cs : Characters) :
    (n ≠ 22#8 ∧ b64d n cs = .error .length) ∨
    (n = 22#8 ∧ charsOk cs = false ∧ b64d n cs = .error .format) ∨
    (n = 22#8 ∧ charsOk cs = true ∧ b64d n cs = .ok (bytesOf (sextetsOfChars cs))) := by
  unfold b64d lengthOk
  split
  · next h => exact .inl ⟨by simpa using h, rfl⟩
  · next h =>
    split
    · next h' => exact .inr (.inl ⟨by simpa using h, h', rfl⟩)
    · next h' => exact .inr (.inr ⟨by simpa using h, by simpa using h', rfl⟩)

/-- R97: what `decode` can answer, given what `b64d` answered. -/
theorem codecDecode_cases (n : Byte) (cs : Characters) :
    (∃ e, b64d n cs = .error e ∧ codecDecode n cs = .error e) ∨
    (∃ b, b64d n cs = .ok b ∧ normalizeMarkers b = emptySentinel ∧ codecDecode n cs = .error .invalidValue) ∨
    (∃ b, b64d n cs = .ok b ∧ normalizeMarkers b ≠ emptySentinel ∧ codecDecode n cs = .ok (normalizeMarkers b, markerFlags b)) := by
  unfold codecDecode
  split
  · next e h => exact .inl ⟨e, h, rfl⟩
  · next b h =>
    split
    · next h' => exact .inr (.inl ⟨b, h, h', rfl⟩)
    · next h' => exact .inr (.inr ⟨b, h, h', rfl⟩)

/-- R24: the range check as the slice the spec tests. -/
theorem flagsInRange_iff (fl : Byte) : flagsInRange fl = true ↔ fl.extractLsb 7 6 = 0b00#2 := by
  simp [flagsInRange]

/-! ### One host action -/

/-- R42: a host write that answers next is one of these. -/
theorem hostWrite_cases {run : Instr → State → Host.Outcome State Fault Refusal} {a : Addr} {v : Byte} {s t : State}
    (h : hostWrite run a v s = .next t) :
    (∃ i, locate a = some (.ident i) ∧ t = { s with ident := s.ident.set i v }) ∨
    (a = 0x10#6 ∧ t = { s with fl := v }) ∨
    (a = 0x11#6 ∧ t = { s with slen := v }) ∨
    (∃ k, locate a = some (.sf k) ∧ t = { s with sf := s.sf.set k v }) ∨
    ((a = 0x12#6 ∨ locate a = none) ∧ t = s) ∨
    (a = 0x13#6 ∧ ∃ i, decode v = .ok i ∧ run i s = .next t) ∨
    (a = 0x13#6 ∧ decode v = .error (.illegalCommand v) ∧ t = raise .illegalCommand s) := by
  unfold hostWrite at h
  split at h
  · next i e => cases h; exact .inl ⟨i, e, rfl⟩
  · next e => cases h; exact .inr (.inl ⟨(addressOf_of_locate a _ e).symm, rfl⟩)
  · next e => cases h; exact .inr (.inr (.inl ⟨(addressOf_of_locate a _ e).symm, rfl⟩))
  · next e => cases h; exact .inr (.inr (.inr (.inr (.inl ⟨.inl (addressOf_of_locate a _ e).symm, rfl⟩))))
  · next e =>
    have ea := (addressOf_of_locate a _ e).symm
    unfold startCommand at h
    split at h
    · next i d => exact .inr (.inr (.inr (.inr (.inr (.inl ⟨ea, i, d, h⟩)))))
    · next b d =>
      cases h
      refine .inr (.inr (.inr (.inr (.inr (.inr ⟨ea, ?_, rfl⟩)))))
      rw [d, decode_error v _ d]
  · next k e => cases h; exact .inr (.inr (.inr (.inl ⟨k, e, rfl⟩)))
  · next e => cases h; exact .inr (.inr (.inr (.inr (.inl ⟨.inr e, rfl⟩))))

/-- R48(a): a step that answers next is one of these. -/
theorem step_cases {s t : State} (h : step s = .next t) :
    (s.script = [] ∧ t = s) ∨
    (∃ x rest, s.script = x :: rest ∧ performAction exec x { s with script := rest } = .next t) := by
  unfold step respond nextAction at h
  cases e : s.script with
  | nil => rw [e] at h; cases h; exact .inl ⟨rfl, rfl⟩
  | cons x rest => rw [e] at h; exact .inr ⟨x, rest, rfl, h⟩

/-- A run's first step, when that step answers next. -/
theorem run_succ {s t : State} (k : Nat) (h : step s = .next t) :
    Sys2Proof.core.run (k + 1) s = Sys2Proof.core.run k t := by
  have h' : Sys2Proof.core.step s = Host.Outcome.next t := h
  simp only [Host.Core.run, h']

/-! ### The commands -/

/-- What a `b64d` that answers bytes says of its operands. -/
theorem b64d_ok {n : Byte} {cs : Characters} {b : Identifier} (h : b64d n cs = .ok b) :
    n = 22#8 ∧ charsOk cs = true ∧ b = bytesOf (sextetsOfChars cs) := by
  rcases b64d_cases n cs with ⟨_, e⟩ | ⟨_, _, e⟩ | ⟨h1, h2, e⟩ <;> rw [e] at h
  · simp at h
  · simp at h
  · exact ⟨h1, h2, (Except.ok.inj h).symm⟩

/-- The kinds `b64d` answers. -/
theorem b64d_error {n : Byte} {cs : Characters} {e : ErrKind} (h : b64d n cs = .error e) :
    e = .length ∨ e = .format := by
  rcases b64d_cases n cs with ⟨_, e'⟩ | ⟨_, _, e'⟩ | ⟨_, _, e'⟩ <;> rw [e'] at h
  · exact .inl (Except.error.inj h).symm
  · exact .inr (Except.error.inj h).symm
  · simp at h

/-- R8: a command that answers next has raised one of its kinds, has failed as a probe, or has written its results and ended in
`done`. -/
theorem exec_cases {i : Instr} {s t : State} (h : exec i s = .next t) :
    (∃ e, t = raise e s ∧ ((i = .dec ∨ i = .b64d) ∧ (e = .length ∨ e = .format) ∨
      (i = .enc ∨ i = .dec) ∧ e = .invalidValue ∨ (i = .enc ∨ i = .pack) ∧ e = .range)) ∨
    (i = .trydec ∧ t = probeFailed s) ∨
    (i = .enc ∧ flagsInRange s.fl = true ∧ s.ident ≠ allZero ∧ s.ident ≠ emptySentinel ∧
      t = done (setString (b64e (pack s.ident (flagsValue s.fl))) s)) ∨
    (i = .b64e ∧ t = done (setString (b64e s.ident) s)) ∨
    (i = .pack ∧ flagsInRange s.fl = true ∧ t = done (setIdent (pack s.ident (flagsValue s.fl)) s)) ∨
    (i = .unpack ∧ t = done (setFlags (markerFlags s.ident) (setIdent (normalizeMarkers s.ident) s))) ∨
    (∃ b, b64d s.slen s.sf = .ok b ∧ (i = .b64d ∧ t = done (setIdent b s) ∨
      (i = .dec ∨ i = .trydec) ∧ normalizeMarkers b ≠ emptySentinel ∧
        t = done (setFlags (markerFlags b) (setIdent (normalizeMarkers b) s)))) := by
  cases i with
  | enc =>
    rcases codecEncode_cases s.ident s.fl with ⟨_, e⟩ | ⟨_, _, e⟩ | ⟨h1, h2, h3, e⟩ <;>
      simp only [exec, execEnc, e] at h <;> cases h
    · exact .inl ⟨_, rfl, by simp⟩
    · exact .inl ⟨_, rfl, by simp⟩
    · exact .inr (.inr (.inl ⟨rfl, h1, h2, h3, rfl⟩))
  | dec =>
    rcases codecDecode_cases s.slen s.sf with ⟨x, h0, e⟩ | ⟨_, _, _, e⟩ | ⟨b, h1, h2, e⟩ <;>
      simp only [exec, execDec, e] at h <;> cases h
    · exact .inl ⟨_, rfl, by simp [b64d_error h0]⟩
    · exact .inl ⟨_, rfl, by simp⟩
    · exact .inr (.inr (.inr (.inr (.inr (.inr ⟨b, h1, .inr ⟨.inl rfl, h2, rfl⟩⟩)))))
  | trydec =>
    rcases codecDecode_cases s.slen s.sf with ⟨_, _, e⟩ | ⟨_, _, _, e⟩ | ⟨b, h1, h2, e⟩ <;>
      simp only [exec, execTrydec, e] at h <;> cases h
    · exact .inr (.inl ⟨rfl, rfl⟩)
    · exact .inr (.inl ⟨rfl, rfl⟩)
    · exact .inr (.inr (.inr (.inr (.inr (.inr ⟨b, h1, .inr ⟨.inr rfl, h2, rfl⟩⟩)))))
  | pack =>
    simp only [exec, execPack] at h
    split at h <;> next hf =>
      cases h
      first
        | exact .inl ⟨_, rfl, by simp⟩
        | exact .inr (.inr (.inr (.inr (.inl ⟨rfl, by simpa using hf, rfl⟩))))
  | unpack => cases h; exact .inr (.inr (.inr (.inr (.inr (.inl ⟨rfl, rfl⟩)))))
  | b64e => cases h; exact .inr (.inr (.inr (.inl ⟨rfl, rfl⟩)))
  | b64d =>
    cases hb : b64d s.slen s.sf <;> simp only [exec, execB64d, hb] at h <;> cases h
    · exact .inl ⟨_, rfl, by simp [b64d_error hb]⟩
    · exact .inr (.inr (.inr (.inr (.inr (.inr ⟨_, rfl, .inl ⟨rfl, rfl⟩⟩)))))

end Sys2Proof.Machine
end

