-- ==== Sys2Proof/Laws/Adapter.lean ====
section
/-!
SUPPORT. What a list of host actions does: one action after another, the writes and reads of consecutive addresses, and the two
exchanges of the FlagsAdapter.
-/

namespace Sys2Proof.Machine

/-! ### Lists of actions -/

/-- No actions do nothing. -/
@[simp] theorem performAll_nil (run : Instr → State → Host.Outcome State Fault Refusal) (s : State) :
    performAll run [] s = .next s := rfl

/-- The first action, when it answers next. -/
theorem performAll_cons {run : Instr → State → Host.Outcome State Fault Refusal} {x : HostAction} {s t : State}
    (xs : List HostAction) (h : performAction run x s = .next t) : performAll run (x :: xs) s = performAll run xs t := by
  simp only [performAll, h]

/-- The first part of a list, when it answers next. -/
theorem performAll_append {run : Instr → State → Host.Outcome State Fault Refusal} {xs : List HostAction} {s t : State}
    (ys : List HostAction) (h : performAll run xs s = .next t) : performAll run (xs ++ ys) s = performAll run ys t := by
  induction xs generalizing s with
  | nil => cases h; rfl
  | cons x xs ih =>
    cases e : performAction run x s <;> simp only [performAll, e] at h
    · rw [List.cons_append, performAll_cons _ e, ih h]
    · cases h
    · cases h

/-- A read's byte does not depend on what the host has read. -/
@[simp] theorem readReg_reads (s : State) (l : List Byte) (a : Addr) : readReg { s with reads := l } a = readReg s a := rfl

/-- Reads of consecutive addresses return the bytes there and change no register. -/
theorem performAll_readsFrom (run : Instr → State → Host.Outcome State Fault Refusal) (n base : Nat) (s : State) :
    performAll run (readsFrom base n) s =
      .next { s with reads := s.reads ++ (List.range n).map fun i => readReg s (BitVec.ofNat 6 (base + i)) } := by
  induction n generalizing base s with
  | zero => simp [readsFrom]
  | succ n ih =>
    rw [readsFrom, performAll_cons _ rfl, ih, List.range_succ_eq_map]
    have e : ∀ i : Nat, base + 1 + i = base + (i + 1) := fun i => by omega
    simp [hostRead, scriptAddr, Function.comp_def, e]

/-- Writes of consecutive bytes within `ID`. -/
theorem performAll_writesFrom_ident (run : Instr → State → Host.Outcome State Fault Refusal) (l : List Nat) (base : Nat)
    (s : State) (h : base + l.length ≤ 16) :
    performAll run (writesFrom base l) s = .next { s with ident := Vector.ofFn fun i : Fin 16 =>
      (if base ≤ i.val ∧ i.val < base + l.length then scriptByte (l.getD (i.val - base) 0) else s.ident[i]) } := by
  induction l generalizing base s with
  | nil =>
    have e : (Vector.ofFn fun i : Fin 16 => if base ≤ i.val ∧ i.val < base + ([] : List Nat).length then
        scriptByte (([] : List Nat).getD (i.val - base) 0) else s.ident[i]) = s.ident := by
      ext k hk : 1
      rw [Vector.getElem_ofFn, if_neg (by simp)]
      rfl
    rw [e]
    rfl
  | cons v vs ih =>
    simp only [List.length_cons] at h
    have hl : locate (scriptAddr base) = some (.ident ⟨base, by omega⟩) :=
      locate_ident _ _ (by simp [scriptAddr]; omega)
    have hw : performAction run (.wr (scriptAddr base) (scriptByte v)) s =
        .next { s with ident := s.ident.set base (scriptByte v) (by omega) } := by
      simp [performAction, hostWrite, hl]
    rw [writesFrom, performAll_cons _ hw, ih _ _ (by omega)]
    refine congrArg (fun b => Host.Outcome.next (State.mk b s.fl s.slen s.sf s.status s.script s.reads)) ?_
    ext k hk : 1
    simp only [Vector.getElem_ofFn, Fin.getElem_fin, List.length_cons]
    rcases Nat.lt_trichotomy k base with hb | rfl | hb
    · rw [if_neg (by omega), if_neg (by omega), Vector.getElem_set_ne _ _ (by omega)]
    · rw [if_neg (by omega), if_pos (by omega)]
      simp
    · by_cases hi : k < base + 1 + vs.length
      · rw [if_pos (by omega), if_pos (by omega), show k - base = (k - (base + 1)) + 1 by omega]
        simp
      · rw [if_neg (by omega), if_neg (by omega), Vector.getElem_set_ne _ _ (by omega)]

/-- Writes of the first characters of a string. -/
theorem performAll_writesFrom_sf (run : Instr → State → Host.Outcome State Fault Refusal) (l : List Nat) (a base : Nat)
    (s : State) (ha : a = 0x20 + base) (h : base + l.length ≤ 22) :
    performAll run (writesFrom a l) s = .next { s with sf := Vector.ofFn fun i : Fin 22 =>
      (if base ≤ i.val ∧ i.val < base + l.length then scriptByte (l.getD (i.val - base) 0) else s.sf[i]) } := by
  induction l generalizing a base s with
  | nil =>
    have e : (Vector.ofFn fun i : Fin 22 => if base ≤ i.val ∧ i.val < base + ([] : List Nat).length then
        scriptByte (([] : List Nat).getD (i.val - base) 0) else s.sf[i]) = s.sf := by
      ext k hk : 1
      rw [Vector.getElem_ofFn, if_neg (by simp)]
      rfl
    rw [e]
    rfl
  | cons v vs ih =>
    simp only [List.length_cons] at h
    have hl : locate (scriptAddr a) = some (.sf ⟨base, by omega⟩) :=
      locate_sf _ _ (by rw [ha]; simp [scriptAddr]; omega)
    have hw : performAction run (.wr (scriptAddr a) (scriptByte v)) s =
        .next { s with sf := s.sf.set base (scriptByte v) (by omega) } := by
      simp [performAction, hostWrite, hl]
    rw [writesFrom, performAll_cons _ hw, ih (a + 1) (base + 1) _ (by omega) (by omega)]
    refine congrArg (fun cs => Host.Outcome.next (State.mk s.ident s.fl s.slen cs s.status s.script s.reads)) ?_
    ext k hk : 1
    simp only [Vector.getElem_ofFn, Fin.getElem_fin, List.length_cons]
    rcases Nat.lt_trichotomy k base with hb | rfl | hb
    · rw [if_neg (by omega), if_neg (by omega), Vector.getElem_set_ne _ _ (by omega)]
    · rw [if_neg (by omega), if_pos (by omega)]
      simp
    · by_cases hi : k < base + 1 + vs.length
      · rw [if_pos (by omega), if_pos (by omega), show k - base = (k - (base + 1)) + 1 by omega]
        simp
      · rw [if_neg (by omega), if_neg (by omega), Vector.getElem_set_ne _ _ (by omega)]

/-- A write of a command's byte to `CMD` is the command. -/
theorem performAction_command (run : Instr → State → Host.Outcome State Fault Refusal) (i : Instr) (s : State) :
    performAction run (commandAction i) s = run i s := by
  have hd : decode (encode i) = .ok i := by cases i <;> rfl
  simp only [performAction, commandAction, hostWrite, locate_addressOf, startCommand, hd]

/-! ### What the host has read -/

/-- Sixteen reads of `ID` return its bytes. -/
theorem reads_ident (s : State) : ((List.range 16).map fun i => readReg s (BitVec.ofNat 6 (0x00 + i))) = s.ident.toList := by
  apply List.ext_getElem (by simp)
  intro i h _
  have hi : i < 16 := by simpa using h
  simp only [List.getElem_map, List.getElem_range, Vector.getElem_toList]
  rw [readReg, locate_ident _ ⟨i, hi⟩ (by simp; omega)]
  rfl

/-- Twenty-two reads of `SF` return its characters. -/
theorem reads_sf (s : State) : ((List.range 22).map fun k => readReg s (BitVec.ofNat 6 (0x20 + k))) = s.sf.toList := by
  apply List.ext_getElem (by simp)
  intro i h _
  have hi : i < 22 := by simpa using h
  simp only [List.getElem_map, List.getElem_range, Vector.getElem_toList]
  rw [readReg, locate_sf _ ⟨i, hi⟩ (by simp; omega)]
  rfl

/-- A string's bytes make the string. -/
@[simp] theorem charsOfBytes_toList (cs : Characters) : charsOfBytes cs.toList = cs := by
  ext k hk : 1
  simp [charsOfBytes, List.getD]

/-- An identifier's bytes, with more after them, make the identifier. -/
@[simp] theorem identOfBytes_append (g : Identifier) (l : List Byte) : identOfBytes (g.toList ++ l) = g := by
  ext i hi : 1
  simp [identOfBytes, List.getD, List.getElem?_append_left]

/-- R141: an error's status is no success. -/
@[simp] theorem statusOk_errorStatus (e : ErrKind) : statusOk (errorStatus e) = false := by cases e <;> decide

/-- R141: an error's status holds the error's code. -/
@[simp] theorem statusErr_errorStatus (e : ErrKind) : statusErr (errorStatus e) = errCode e := by cases e <;> decide

/-- R142: the status of success. -/
@[simp] theorem statusOk_okStatus : statusOk okStatus = true := by decide

/-- R116: a successful reply is the text read. -/
theorem encodeReply_ok (cs : Characters) : encodeReply (okStatus :: cs.toList) = .ok cs := by
  rw [encodeReply, List.getD_cons_zero, if_pos statusOk_okStatus, List.drop_one, List.tail_cons, charsOfBytes_toList]

/-- R116: a reply of error is the error's code. -/
theorem encodeReply_error (e : ErrKind) (l : List Byte) : encodeReply (errorStatus e :: l) = .error (errCode e) := by
  rw [encodeReply, List.getD_cons_zero, if_neg (by simp), statusErr_errorStatus]

/-- R117: a reply is the identifier and the number in `FL`. -/
theorem decodeReply_append (k : IntKind) (g : Identifier) (fl : Byte) :
    decodeReply k (g.toList ++ [fl]) = (g, ⟨k, fl.toNat⟩) := by
  rw [decodeReply, identOfBytes_append, enumOfFlags]
  simp [List.getD]

/-- An exchange whose actions answer next goes on with the bytes they read. -/
theorem hostCall_next {α : Type} {xs : List HostAction} {s t : State} {l : List Byte}
    (goOn : State → List Byte → Host.Outcome α Fault Refusal) (h : performAll exec xs s = .next t)
    (hr : t.reads = s.reads ++ l) : hostCall xs goOn s = goOn t l := by
  simp only [hostCall, h, hr, List.drop_left]

end Sys2Proof.Machine
end

