-- ==== Sys2Proof/Laws/PerInstr.lean ====
section
/-!
SUPPORT. Statements about every command as syntax, one lemma per constructor.
-/

namespace Sys2Proof.Laws

/-- 30_encoding.md R60, R61: a command is well formed, its one byte is 1..7, and the row its byte is in selects it and no other. -/
def OpcodeByte.Statement (i : Instr) : Prop :=
  i.wf = true ∧ 1 ≤ (encode i).toNat ∧ (encode i).toNat ≤ 7 ∧
    (opcodeMap.filter fun r => encode i &&& r.mask == r.pattern).map (·.instr) = [i]

theorem OpcodeByte.enc : OpcodeByte.Statement .enc := by unfold OpcodeByte.Statement; decide

theorem OpcodeByte.dec : OpcodeByte.Statement .dec := by unfold OpcodeByte.Statement; decide

theorem OpcodeByte.trydec : OpcodeByte.Statement .trydec := by unfold OpcodeByte.Statement; decide

theorem OpcodeByte.pack : OpcodeByte.Statement .pack := by unfold OpcodeByte.Statement; decide

theorem OpcodeByte.unpack : OpcodeByte.Statement .unpack := by unfold OpcodeByte.Statement; decide

theorem OpcodeByte.b64e : OpcodeByte.Statement .b64e := by unfold OpcodeByte.Statement; decide

theorem OpcodeByte.b64d : OpcodeByte.Statement .b64d := by unfold OpcodeByte.Statement; decide

end Sys2Proof.Laws
end

