-- ==== Sys2Proof/Tests/Slice0.lean ====
section
/-!
SUPPORT. Tests, each one step or less, with expected values from the worked examples and vectors of spec/ (95_test_vectors.md; the vector
is named above each test); the smoke test of WellFormed; and for every obligation with hypotheses a concrete input that meets them.
-/

namespace Sys2Proof.Tests

open Sys2Proof.Machine

/-! ### Helpers -/

/-- A state with the given operand registers, `STATUS` 0, and nothing for the host to do. -/
def operands (ident : Identifier) (fl slen : Byte) (sf : Characters) : State :=
  { State.reset with ident := ident, fl := fl, slen := slen, sf := sf }

/-- Characters by their codes; those not listed are NUL. -/
def chars (l : List Nat) : Characters := Vector.ofFn fun k => BitVec.ofNat 8 (l.getD k.val 0)

/-- `n` letters `A`. -/
def letterA (n : Nat) : List Nat := List.replicate n 0x41

/-- Whether an outcome is a next state of which `p` holds. -/
def nextIs (o : Host.Outcome State Fault Refusal) (p : State → Bool) : Bool :=
  match o with
  | .next t => p t
  | .fault _ => false
  | .refused _ => false

/-- ONE of 95_test_vectors.md, the source's scenario identifier. -/
def one : Identifier := #v[0, 0, 0, 0, 0, 0, 0, 0x40, 0x80, 0, 0, 0, 0, 0, 0, 1]

/-- SEQ of 95_test_vectors.md. -/
def seq : Identifier := #v[0, 1, 2, 3, 4, 5, 6, 7, 8, 9, 10, 11, 12, 13, 14, 15]

/-- SEQc of 95_test_vectors.md. -/
def seqc : Identifier := #v[0, 1, 2, 3, 4, 5, 6, 0x47, 0x88, 9, 10, 11, 12, 13, 14, 15]

/-- ONES of 95_test_vectors.md. -/
def ones : Identifier := Vector.replicate 16 0xFF#8

/-- ZP of 95_test_vectors.md: zero payload, every marker bit set. -/
def zp : Identifier := #v[0, 0, 0, 0, 0, 0, 0, 0xF0, 0xC0, 0, 0, 0, 0, 0, 0, 0]

/-- S1: `AAAAAAAAAPDAAAAAAAAAAQ`. -/
def oneText : Characters := chars (letterA 9 ++ [0x50, 0x44] ++ letterA 10 ++ [0x51])

/-- V-B4: `AAECAwQFBgcICQoLDA0ODw`. -/
def seqText : Characters :=
  chars [0x41, 0x41, 0x45, 0x43, 0x41, 0x77, 0x51, 0x46, 0x42, 0x67, 0x63, 0x49, 0x43, 0x51, 0x6F, 0x4C, 0x44, 0x41, 0x30,
    0x4F, 0x44, 0x77]

/-- S6: eleven `A`, `%`, ten `A`. -/
def percentText : Characters := chars (letterA 11 ++ [0x25] ++ letterA 10)

/-- Twenty-two `A`. -/
def allA : Characters := chars (letterA 22)

/-- V-D: the registers before every row, with a string presented. -/
def presented (slen : Byte) (sf : Characters) : State := operands ones 0x77#8 slen sf

/-! ### Decoding (R61): the bits column of the opcode map -/

theorem test_decode_enc : decode 0b00000001#8 = .ok .enc := by decide
theorem test_decode_dec : decode 0b00000010#8 = .ok .dec := by decide
theorem test_decode_trydec : decode 0b00000011#8 = .ok .trydec := by decide
theorem test_decode_pack : decode 0b00000100#8 = .ok .pack := by decide
theorem test_decode_unpack : decode 0b00000101#8 = .ok .unpack := by decide
theorem test_decode_b64e : decode 0b00000110#8 = .ok .b64e := by decide
theorem test_decode_b64d : decode 0b00000111#8 = .ok .b64d := by decide

/-- V-I: `ENC` with bit 4 or bit 7 set is no alias of `ENC`. -/
theorem test_decode_no_alias :
    decode 0x11#8 = .error (.illegalCommand 0x11#8) ∧ decode 0x81#8 = .error (.illegalCommand 0x81#8) := by decide

/-- The table words of the first and the last row, and a word of no row. -/
theorem test_decodeTableWord :
    decodeTableWord 8 1 = some .enc ∧ decodeTableWord 8 7 = some .b64d ∧ decodeTableWord 8 8 = none := by decide

/-! ### WellFormed: an ill-formed line for each check, and a good one beside it -/

theorem test_wf_command : Instr.enc.wf = true := by decide
theorem test_wf_address : (ScriptLine.wr 64 0).wf = false ∧ (ScriptLine.wr 63 255).wf = true := by decide
theorem test_wf_byte : (ScriptLine.wr 0 256).wf = false := by decide
theorem test_wf_read_address : (ScriptLine.rd 64).wf = false ∧ (ScriptLine.rd 63).wf = true := by decide
theorem test_wf_named_byte : (ScriptLine.wrName .fl 256).wf = false ∧ (ScriptLine.wrName .fl 255).wf = true := by decide
theorem test_wf_ldid_length : (ScriptLine.ldid (List.replicate 15 0)).wf = false := by decide
theorem test_wf_ldid_byte :
    (ScriptLine.ldid (256 :: List.replicate 15 0)).wf = false ∧ (ScriptLine.ldid (List.replicate 16 255)).wf = true := by
  decide
theorem test_wf_ldfl : (ScriptLine.ldfl 256).wf = false ∧ (ScriptLine.ldfl 64).wf = true := by decide
theorem test_wf_ldsf_length : (ScriptLine.ldsf (letterA 256)).wf = false := by
  rw [ScriptLine.wf, letterA, List.length_replicate]; rfl
theorem test_wf_ldsf_char : (ScriptLine.ldsf [128]).wf = false ∧ (ScriptLine.ldsf [127]).wf = true := by decide

/-! ### The commands -/

/-- V-E1, S1. -/
theorem test_enc_scenario :
    nextIs (exec .enc (operands one 0x3F#8 7#8 allA)) (fun t =>
      t.sf == oneText && t.slen == 22#8 && t.status == 0x01#8 && t.ident == one && t.fl == 0x3F#8) = true := by decide

/-- V-E25: RangeError before InvalidValueError, and nothing written. -/
theorem test_enc_priority :
    nextIs (exec .enc (operands emptySentinel 0xFF#8 7#8 allA)) (fun t =>
      t.status == 0x06#8 && t.sf == allA && t.slen == 7#8) = true := by decide

/-- V-D3: the spare bits of a last `f` are ignored. -/
theorem test_dec_spare_bits :
    nextIs (exec .dec (presented 22#8 (oneText.set 21 0x66#8))) (fun t =>
      t.ident == one && t.fl == 0x3F#8 && t.status == 0x01#8) = true := by decide

/-- V-D5: the text of EmptySentinel, `AAAAAAAAAECAAAAAAAAAAA`. -/
theorem test_dec_empty :
    nextIs (exec .dec (presented 22#8 (chars (letterA 9 ++ [0x45, 0x43] ++ letterA 11)))) (fun t =>
      t.ident == ones && t.fl == 0x77#8 && t.status == 0x08#8) = true := by decide

/-- V-D1d, V-D4: markers `0000`, `00` are normalized. -/
theorem test_trydec_normalizes :
    nextIs (exec .trydec (presented 22#8 seqText)) (fun t =>
      t.ident == seqc && t.fl == 0x00#8 && t.status == 0x01#8) = true := by decide

/-- V-D2a: a boolean "no" and nothing written. -/
theorem test_trydec_fails :
    nextIs (exec .trydec (presented 22#8 allA)) (fun t =>
      t.ident == ones && t.fl == 0x77#8 && t.status == 0x00#8) = true := by decide

/-- V-P4: low nibble `0101`, high pair `01`. -/
theorem test_pack_bits :
    nextIs (exec .pack (operands seq 0x15#8 0#8 allA)) (fun t =>
      t.ident == (seq.set 7 0x57#8).set 8 0x48#8 && t.status == 0x01#8) = true := by decide

/-- V-P12: bit 7 set. -/
theorem test_pack_range :
    nextIs (exec .pack (operands seq 0x80#8 0#8 allA)) (fun t => t.ident == seq && t.status == 0x06#8) = true := by decide

/-- V-U7: flags 21 come out and the markers are restored. -/
theorem test_unpack_bits :
    nextIs (exec .unpack (operands ((seq.set 7 0x57#8).set 8 0x48#8) 0xEE#8 0#8 allA)) (fun t =>
      t.ident == seqc && t.fl == 0x15#8 && t.status == 0x01#8) = true := by decide

/-- V-U3: no EmptySentinel check. -/
theorem test_unpack_zero :
    nextIs (exec .unpack (operands allZero 0xEE#8 0#8 allA)) (fun t =>
      t.ident == emptySentinel && t.fl == 0x00#8 && t.status == 0x01#8) = true := by decide

/-- V-B4. -/
theorem test_b64e_sequence :
    nextIs (exec .b64e (operands seq 0xFF#8 0#8 allA)) (fun t =>
      t.sf == seqText && t.slen == 22#8 && t.status == 0x01#8) = true := by decide

/-- V-B5: sextet 62 is `-` (conflict C1). -/
theorem test_b64e_dash :
    nextIs (exec .b64e (operands (Vector.ofFn fun i : Fin 16 => [0xFB#8, 0xEF#8, 0xBE#8].getD (i.val % 3) 0) 0#8 0#8 allA))
      (fun t => t.sf == chars (List.replicate 21 0x2D ++ [0x77])) = true := by decide

/-- V-F8: twenty-one `A` and `_`, whose top two bits are kept. -/
theorem test_b64d_spare_bits :
    nextIs (exec .b64d (operands seq 0x15#8 22#8 (allA.set 21 0x5F#8))) (fun t =>
      t.ident == allZero.set 15 0x03#8 && t.fl == 0x15#8 && t.status == 0x01#8) = true := by decide

/-- V-F30: all eight bits of a character are compared. -/
theorem test_b64d_high_bit :
    nextIs (exec .b64d (operands seq 0x15#8 22#8 (allA.set 0 0xC1#8))) (fun t =>
      t.ident == seq && t.status == 0x04#8) = true := by decide

/-! ### Registers, steps and scripts -/

/-- R42, R43: the first and the last register of each array. -/
theorem test_register_edges :
    readReg (operands (seq.set 0 0xAA#8) 0#8 0#8 (allA.set 21 0xBB#8)) 0x00#6 = 0xAA#8 ∧
    readReg (operands seq 0#8 0#8 allA) 0x0F#6 = 0x0F#8 ∧
    readReg (operands (seq.set 0 0xAA#8) 0#8 0#8 (allA.set 21 0xBB#8)) 0x35#6 = 0xBB#8 ∧
    readReg (operands seq 0#8 0#8 allA) 0x36#6 = 0x00#8 := by decide

/-- R44: a write to `STATUS` is ignored. -/
theorem test_status_read_only :
    nextIs (performAction exec (.wr 0x12#6 0xFF#8) State.reset) (fun t => t == State.reset) = true := by decide

/-- R162: `B64E` placed as the next command after reset gives 22 `A`. -/
theorem test_step_runs_placed_command :
    nextIs (step (State.reset.withFetchWord 8 6)) (fun t => t.sf == allA && t.script == []) = true := by decide

/-- R43: a step at a read hands the host the byte. -/
theorem test_step_reads :
    nextIs (step { operands seq 0x2A#8 0#8 allA with script := [.rd 0x10#6] }) (fun t => t.reads == [0x2A#8]) = true := by
  decide

/-- R33, V-X1: `f81d4fae-7dec-41d0-a765-00a0c91e6bf6`. -/
theorem test_ident_of_text :
    identOfText #v[0xF8, 0x1D, 0x4F, 0xAE, 0x7D, 0xEC, 0x41, 0xD0, 0xA7, 0x65, 0x00, 0xA0, 0xC9, 0x1E, 0x6B, 0xF6] =
      #v[0xAE, 0x4F, 0x1D, 0xF8, 0xEC, 0x7D, 0xD0, 0x41, 0xA7, 0x65, 0x00, 0xA0, 0xC9, 0x1E, 0x6B, 0xF6] := by decide

/-- R66: `LDSF` of a 23-character string writes 22 characters and the length 23. -/
theorem test_ldsf_long :
    expandLine (.ldsf (letterA 23)) =
      ((List.range 22).map fun k => HostAction.wr (BitVec.ofNat 6 (0x20 + k)) 0x41#8) ++ [.wr 0x11#6 23#8] := by decide

/-- R116: an enumeration value of 256 is not truncated to 0. -/
theorem test_present_flags : presentFlags 256 = 0xFF#8 ∧ presentFlags (-1) = 0xFF#8 ∧ presentFlags 5 = 0x05#8 := by decide

/-- R116: `FL` is written first, then `ID`, then `ENC`; `STATUS` and `SF` are read and nothing else. -/
theorem test_encode_actions :
    (encodeActions seq 5).take 3 = [.wr 0x10#6 0x05#8, .wr 0x00#6 0x00#8, .wr 0x01#6 0x01#8] ∧
    (encodeActions seq 5).drop 17 =
      .wr 0x13#6 0x01#8 :: .rd 0x12#6 :: (List.range 22).map fun k => HostAction.rd (BitVec.ofNat 6 (0x20 + k)) := by decide

/-- R117: an empty string's LengthError, after which neither `ID` nor `FL` is read. -/
theorem test_decode_reads_status_only :
    (match decodeWithEnum .u8 [] State.reset with
      | .next (t, r) => decide (r = .error 1#3) && decide (t.reads = [0x02#8])
      | .fault _ => false
      | .refused _ => false) = true := by decide

/-- R117: the bytes of ONE and a flags byte of 63 are the identifier and the enumeration value 63. -/
theorem test_decode_reply : decodeReply .i8 (one.toList ++ [0x3F#8]) = (one, ⟨.i8, 63⟩) := by decide

/-- R119: a value outside its kind is no value of an enumeration. -/
theorem test_enum_bounds :
    enumBounded ⟨.i8, 127⟩ = true ∧ enumBounded ⟨.i8, 128⟩ = false ∧ enumBounded ⟨.u8, 255⟩ = true ∧
    enumBounded ⟨.u8, 256⟩ = false ∧ enumBounded ⟨.u16, -1⟩ = false ∧ enumBounded ⟨.i64, -9223372036854775808⟩ = true ∧
    enumBounded ⟨.unrecognized, 0⟩ = false := by decide

/-- R120: the flags are left out of equality. -/
theorem test_same_decoded : sameDecoded (one, 1#6) (one, 2#6) = true ∧ sameDecoded (one, 1#6) (seq, 1#6) = false := by decide

/-! ### Witnesses: inputs that meet the hypotheses of each obligation, every clause, at the edges of its range -/

theorem witness_EncodedCommandDecodesToItself : Instr.b64d.wf = true := by decide

theorem witness_DecoderAcceptsExactlySevenBytes :
    (1 ≤ (0x01#8).toNat ∧ (0x01#8).toNat ≤ 7) ∧ (1 ≤ (0x07#8).toNat ∧ (0x07#8).toNat ≤ 7) ∧
    ((0x00#8).toNat = 0) ∧ (8 ≤ (0x08#8).toNat) ∧ (8 ≤ (0xFF#8).toNat) := by decide

/-- For StepPerformsTheNextHostAction, StepRunsTheDecodedCommand, StepTakesOneHostAction. -/
theorem witness_steps :
    ({ State.reset with script := [.wr 0x13#6 0x01#8, .rd 0x12#6] }).script = .wr 0x13#6 0x01#8 :: [.rd 0x12#6] ∧
    decode 0x01#8 = .ok .enc ∧ Instr.enc.wf = true ∧ State.reset.script = [] := by decide

/-- For IllegalCommandByteIsRecorded, and the last clause of ErrorKindsByExactCause. -/
theorem witness_illegal_bytes : (0x00#8).toNat = 0 ∧ 8 ≤ (0x08#8).toNat ∧ 8 ≤ (0xFF#8).toNat := by decide

/-- For HostWriteByAddress and HostReadByAddress: each range at its two ends. -/
theorem witness_addresses :
    (0x00#6).toNat = (0 : Fin 16).val ∧ (0x0F#6).toNat = (15 : Fin 16).val ∧ (0x20#6).toNat = 0x20 + (0 : Fin 22).val ∧
    (0x35#6).toNat = 0x20 + (21 : Fin 22).val ∧ (0x14 ≤ (0x14#6).toNat ∧ (0x14#6).toNat ≤ 0x1F) ∧
    (0x14 ≤ (0x1F#6).toNat ∧ (0x1F#6).toNat ≤ 0x1F) ∧ 0x36 ≤ (0x36#6).toNat ∧ 0x36 ≤ (0x3F#6).toNat ∧
    decode 0x07#8 = .ok .b64d := by decide

/-- For ReadAfterWrite: a read/write register at each end of each range, a read-only and a reserved address. -/
theorem witness_ReadAfterWrite :
    0x00#6 ≠ 0x13#6 ∧ ((0x11#6).toNat ≤ 0x11) ∧ 0x12#6 ≠ 0x13#6 ∧ ¬ ((0x12#6).toNat ≤ 0x11) ∧
    (0x20 ≤ (0x35#6).toNat ∧ (0x35#6).toNat ≤ 0x35) ∧ ¬ (0x20 ≤ (0x36#6).toNat ∧ (0x36#6).toNat ≤ 0x35) := by decide

theorem witness_RegisterWritesCommute : 0x00#6 ≠ 0x01#6 ∧ 0x00#6 ≠ 0x13#6 ∧ 0x01#6 ≠ 0x13#6 := by decide

/-- For PackWritesFlagsOverMarkers, EncChecksAndEncodes, EncodeRejections, ErrorKindsByExactCause: `FL` at 0, 63, 64 and 255. -/
theorem witness_flags_range :
    (operands one 0x00#8 0#8 allA).fl.extractLsb 7 6 = 0b00#2 ∧ (operands one 0x3F#8 0#8 allA).fl.extractLsb 7 6 = 0b00#2 ∧
    (operands one 0x40#8 0#8 allA).fl.extractLsb 7 6 ≠ 0b00#2 ∧ (operands one 0xFF#8 0#8 allA).fl.extractLsb 7 6 ≠ 0b00#2 ∧
    64 ≤ (operands one 0x40#8 0#8 allA).fl.toNat ∧
    ((operands emptySentinel 0x3F#8 0#8 allA).fl.toNat ≤ 63 ∧
      ((operands emptySentinel 0x3F#8 0#8 allA).ident = allZero ∨
        (operands emptySentinel 0x3F#8 0#8 allA).ident = emptySentinel)) := by decide

theorem witness_B64eEncodesEveryIdentifier :
    (operands allZero 0#8 0#8 allA).ident[15].extractLsb 1 0 = 0#2 ∧ (operands one 0#8 0#8 allA).ident[15].extractLsb 1 0 = 1#2 ∧
    (operands (one.set 15 0x02#8) 0#8 0#8 allA).ident[15].extractLsb 1 0 = 2#2 ∧
    (operands ones 0#8 0#8 allA).ident[15].extractLsb 1 0 = 3#2 := by decide

/-- For EncChecksAndEncodes, ErrorKindsByExactCause: an identifier of each sort with `FL` = 63. -/
theorem witness_EncChecksAndEncodes :
    ((operands one 0x3F#8 0#8 allA).fl.extractLsb 7 6 = 0b00#2 ∧ (operands one 0x3F#8 0#8 allA).ident ≠ allZero ∧
      (operands one 0x3F#8 0#8 allA).ident ≠ emptySentinel) ∧
    ((operands allZero 0x3F#8 0#8 allA).fl.extractLsb 7 6 = 0b00#2 ∧
      ((operands allZero 0x3F#8 0#8 allA).ident = allZero ∨ (operands allZero 0x3F#8 0#8 allA).ident = emptySentinel)) := by
  decide

/-- For B64dChecksAndDecodes, DecChecksAndDecodes, TrydecProbes, DecodedByteLayout, DecodeRejections: the lengths beside 22, a bad
character, a good string that decodes, and one that decodes to EmptySentinel. -/
theorem witness_decode_operands :
    (presented 21#8 allA).slen ≠ 22#8 ∧ (presented 23#8 allA).slen ≠ 22#8 ∧
    ((presented 22#8 percentText).slen = 22#8 ∧ ∃ k : Fin 22, inAlpha (presented 22#8 percentText).sf[k] = false) ∧
    ((presented 22#8 oneText).slen = 22#8 ∧ (∀ k : Fin 22, inAlpha (presented 22#8 oneText).sf[k] = true) ∧
      normalizeMarkers (bytesOf (sextetsOfChars (presented 22#8 oneText).sf)) ≠ emptySentinel) ∧
    ((presented 22#8 allA).slen = 22#8 ∧ (∀ k : Fin 22, inAlpha (presented 22#8 allA).sf[k] = true) ∧
      normalizeMarkers (bytesOf (sextetsOfChars (presented 22#8 allA).sf)) = emptySentinel) := by decide

/-- For AlphabetTable: each range of the formula at its ends, a character, and the bytes outside. -/
theorem witness_AlphabetTable :
    (25#6).toNat ≤ 25 ∧ (26 ≤ (26#6).toNat ∧ (51#6).toNat ≤ 51) ∧ (52 ≤ (52#6).toNat ∧ (61#6).toNat ≤ 61) ∧
    inAlpha 0x2D#8 = true ∧ inAlpha 0x5F#8 = true ∧ 0x80 ≤ (0x80#8).toNat := by decide

/-- The model's own table meets the hypothesis of Base64LawForAnyTable. -/
theorem witness_Base64LawForAnyTable : ∀ v : Sextet, alphaInv (alpha v) = v := by decide

/-- For SextetLayout, FlagsReachCharactersNineAndTen, Base64UnitsInverseOneWay: indices at the ends, two equal encodings, and a
decoded string with its spare bits zero and another with them set. -/
theorem witness_layout :
    (0 < 22 ∧ 21 < 22 ∧ 4 < 5 ∧ 8 ≠ 9 ∧ 8 ≠ 10 ∧ 11 ≠ 10) ∧ b64e one = b64e one ∧
    b64d 22#8 oneText = .ok ((one.set 7 0xF0#8).set 8 0xC0#8) ∧ (alphaInv oneText[21]).extractLsb 3 0 = 0b0000#4 ∧
    b64d 22#8 (oneText.set 21 0x66#8) = .ok ((one.set 7 0xF0#8).set 8 0xC0#8) ∧
    (alphaInv (oneText.set 21 0x66#8)[21]).extractLsb 3 0 ≠ 0b0000#4 := by decide

/-- For NormalizeAndPayload, EncodeThenDecodeRoundTrip, EnumValueRoundTrip: both values of `payload_zero`. -/
theorem witness_payload :
    (payloadZero (operands one 0x3F#8 0#8 allA).ident = false ∧ (operands one 0x3F#8 0#8 allA).fl.toNat ≤ 63) ∧
    payloadZero zp = true ∧ normalizeMarkers zp = emptySentinel ∧ (0 : Int) ≤ 63 ∧ (63 : Int) ≤ 63 := by decide

/-- V-C3 meets the hypotheses of ZeroPayloadEncodesButDoesNotDecode. -/
theorem witness_ZeroPayloadEncodesButDoesNotDecode :
    payloadZero zp = true ∧ zp ≠ allZero ∧ zp ≠ emptySentinel ∧ (63#6 ≠ 0#6 ∧ 63#6 ≠ 36#6 ∧ zp = pack allZero 63#6) := by
  decide

/-- For EncodingShape and DecodedIdentifiersAreCanonical: an encode and a decode that answer, and a command that succeeds. -/
theorem witness_successes :
    codecEncode one 0x3F#8 = .ok oneText ∧ codecDecode 22#8 oneText = .ok (one, 63#6) ∧
    nextIs (exec .enc (operands one 0x3F#8 0#8 allA)) (fun t => t.status == 0x01#8) = true ∧
    nextIs (exec .dec (presented 22#8 oneText)) (fun t => t.status == 0x01#8) = true := by decide

/-- For ComposedCommandsAreUnitsInSequence, TrydecAgreesWithDec, ErrorKindsByExactCause, FailedCommandWritesStatusOnly: a state for
each `STATUS` that `ENC` and `DEC` leave. -/
theorem witness_outcomes :
    nextIs (exec .enc (operands emptySentinel 0x00#8 0#8 allA)) (fun t => t.status == 0x08#8) = true ∧
    nextIs (exec .enc (operands one 0x40#8 0#8 allA)) (fun t => t.status == 0x06#8) = true ∧
    nextIs (exec .dec (presented 21#8 allA)) (fun t => t.status == 0x02#8) = true ∧
    nextIs (exec .dec (presented 22#8 percentText)) (fun t => t.status == 0x04#8) = true ∧
    nextIs (exec .dec (presented 22#8 allA)) (fun t => t.status == 0x08#8) = true := by decide

/-- For EveryStepKeepsStatusLegal: a state with the invariant whose step answers next, here with an error. -/
theorem witness_EveryStepKeepsStatusLegal :
    (State.reset.withFetchWord 8 2).Inv ∧
    nextIs (step (State.reset.withFetchWord 8 2)) (fun t => t.status == 0x02#8) = true := by decide

/-- For CommandsDependOnlyOnWhatTheyRead: two different states that agree on what each command reads. -/
theorem witness_CommandsDependOnlyOnWhatTheyRead :
    operands one 0x3F#8 22#8 oneText ≠ { operands one 0x3F#8 22#8 oneText with status := 0x0C#8 } ∧
    (operands one 0x3F#8 22#8 oneText).ident = ({ operands one 0x3F#8 22#8 oneText with status := 0x0C#8 }).ident ∧
    (operands one 0x3F#8 22#8 oneText).fl = ({ operands one 0x3F#8 22#8 oneText with status := 0x0C#8 }).fl ∧
    (presented 21#8 allA).slen = (presented 21#8 percentText).slen ∧ (presented 21#8 allA).slen ≠ 22#8 := by decide

/-- For CommandWriteSets and RepeatedCommands: an index the bit-field commands leave, and a command that is not `UNPACK`. -/
theorem witness_write_sets : 6 < 16 ∧ 6 ≠ 7 ∧ 9 ≠ 8 ∧ Instr.pack ≠ .unpack := by decide

/-- For PseudoInstructionExpansions: each length and byte at its largest. -/
theorem witness_PseudoInstructionExpansions :
    (List.replicate 16 255).length = 16 ∧ 255 < 256 ∧ (letterA 255).length ≤ 255 ∧ (letterA 0).length ≤ 255 :=
  ⟨List.length_replicate, by decide, List.length_replicate.le, by decide⟩

theorem witness_LdidLoadsTheIdentifier :
    (List.range 16).length = 16 ∧
    ({ State.reset with script := expandLine (.ldid (List.range 16)) }).script = expandLine (.ldid (List.range 16)) ++ [] := by
  decide

theorem witness_UnsupportedKindNeverReachesTheBlock : recognizedKind .unrecognized = false := by decide

/-- For PresentedFlagsKeepTheVerdict: the ends of 0..255 and the values beside them. -/
theorem witness_PresentedFlagsKeepTheVerdict :
    ((0 : Int) ≤ 0 ∧ (0 : Int) ≤ 255) ∧ ((0 : Int) ≤ 255 ∧ (255 : Int) ≤ 255) ∧ ((-1 : Int) < 0 ∨ (255 : Int) < -1) ∧
    ((256 : Int) < 0 ∨ (255 : Int) < 256) := by decide

theorem witness_ScriptRunPerformsItsActions :
    ({ State.reset with script := [.reset, .rd 0x12#6] }).script = [HostAction.reset] ++ [.rd 0x12#6] := by decide

/-- For EncodeWithEnumAnswersTheCodec: a recognized kind, values in and out of 0..63 at its ends, and both answers of `encode`. -/
theorem witness_EncodeWithEnumAnswersTheCodec :
    recognizedKind (EnumValue.mk .i8 63).kind = true ∧ ((-1 : Int) < 0 ∨ (63 : Int) < -1) ∧ ((64 : Int) < 0 ∨ (63 : Int) < 64) ∧
    ((0 : Int) ≤ 0 ∧ (0 : Int) ≤ 63) ∧ ((0 : Int) ≤ 63 ∧ (63 : Int) ≤ 63) ∧
    codecEncode allZero (BitVec.ofInt 8 63) = .error .invalidValue ∧ codecEncode one (BitVec.ofInt 8 63) = .ok oneText := by
  decide

/-- For DecodeWithEnumAnswersTheCodec: a recognized kind, lengths beside 22, and every answer of `decode` at length 22. -/
theorem witness_DecodeWithEnumAnswersTheCodec :
    recognizedKind .u64 = true ∧ (oneText.toList.take 21).length ≠ 22 ∧ (0x41#8 :: oneText.toList).length ≠ 22 ∧
    oneText.toList.length = 22 ∧ codecDecode 22#8 (charsOfBytes oneText.toList) = .ok (one, 63#6) ∧
    codecDecode 22#8 (charsOfBytes percentText.toList) = .error .format ∧
    codecDecode 22#8 (charsOfBytes allA.toList) = .error .invalidValue := by decide

/-- For EnumAdapterRoundTrip: S8's value 5 of an 8-bit kind, and the largest flags value. -/
theorem witness_EnumAdapterRoundTrip :
    recognizedKind (EnumValue.mk .u8 5).kind = true ∧ 0 ≤ (EnumValue.mk .u8 5).value ∧ (EnumValue.mk .u8 63).value ≤ 63 ∧
    payloadZero seq = false := by decide

end Sys2Proof.Tests
end

/-!
Every function of the model's step answers a next state: the commands, a command write, a host write, a host action, the step. By
induction on its length so does a run. R166 says it of the commands, R8 of the way each of them ends.
-/

namespace Sys2Proof.Machine

/-! ### Every command answers -/

/-- R8, R166: `raise`, a failed probe and `done` are the only ends of a command, and each is a next state. -/
theorem exec_answers_next (i : Instr) (s : State) : ∃ t, exec i s = .next t := by
  cases i with
  | enc =>
    cases h : codecEncode s.ident s.fl with
    | error e => exact ⟨raise e s, by simp only [exec, execEnc, h]⟩
    | ok c => exact ⟨done (setString c s), by simp only [exec, execEnc, h]⟩
  | dec =>
    cases h : codecDecode s.slen s.sf with
    | error e => exact ⟨raise e s, by simp only [exec, execDec, h]⟩
    | ok r => exact ⟨done (setFlags r.2 (setIdent r.1 s)), by simp only [exec, execDec, h]⟩
  | trydec =>
    cases h : codecDecode s.slen s.sf with
    | error e => exact ⟨probeFailed s, by simp only [exec, execTrydec, h]⟩
    | ok r => exact ⟨done (setFlags r.2 (setIdent r.1 s)), by simp only [exec, execTrydec, h]⟩
  | pack =>
    by_cases h : flagsInRange s.fl = false
    · exact ⟨raise .range s, if_pos h⟩
    · exact ⟨done (setIdent (pack s.ident (flagsValue s.fl)) s), if_neg h⟩
  | unpack => exact ⟨_, rfl⟩
  | b64e => exact ⟨_, rfl⟩
  | b64d =>
    cases h : b64d s.slen s.sf with
    | error e => exact ⟨raise e s, by simp only [exec, execB64d, h]⟩
    | ok b => exact ⟨done (setIdent b s), by simp only [exec, execB64d, h]⟩

/-! ### Every host action answers when every command does -/

section
variable {run : Instr → State → Host.Outcome State Fault Refusal} (hrun : ∀ i s, ∃ t, run i s = .next t)
include hrun

/-- R62: a byte that selects no command raises IllegalCommand and the block goes on. -/
theorem startCommand_answers_next (v : Byte) (s : State) : ∃ t, startCommand run v s = .next t := by
  unfold startCommand
  split
  · next i _ => exact hrun i s
  · exact ⟨raise .illegalCommand s, rfl⟩

/-- R42, R44: of all the addresses only `CMD` has a write that is more than a store or nothing. -/
theorem hostWrite_answers_next (a : Addr) (v : Byte) (s : State) : ∃ t, hostWrite run a v s = .next t := by
  unfold hostWrite
  cases locate a with
  | none => exact ⟨s, rfl⟩
  | some l =>
    cases l with
    | ident i => exact ⟨_, rfl⟩
    | fl => exact ⟨_, rfl⟩
    | slen => exact ⟨_, rfl⟩
    | status => exact ⟨s, rfl⟩
    | cmd => exact startCommand_answers_next hrun v s
    | sf k => exact ⟨_, rfl⟩

theorem performAction_answers_next (x : HostAction) (s : State) : ∃ t, performAction run x s = .next t := by
  cases x with
  | wr a v => exact hostWrite_answers_next hrun a v s
  | rd a => exact ⟨hostRead a s, rfl⟩
  | reset => exact ⟨resetRegs s, rfl⟩

/-- R147, R152: with nothing to do the block is idle, which is a next state too. -/
theorem respond_answers_next (s : State) : ∃ t, respond run s = .next t := by
  unfold respond
  cases nextAction s with
  | none => exact ⟨s, rfl⟩
  | some p => exact performAction_answers_next hrun p.1 p.2

end

/-! ### Every run answers -/

theorem step_answers_next (s : State) : ∃ t, step s = .next t := respond_answers_next exec_answers_next s

theorem safeRun (k : Nat) (s : State) : SafeRun k s := by
  induction k generalizing s with
  | zero => exact ⟨s, rfl⟩
  | succ k ih =>
    obtain ⟨t, hstep⟩ := step_answers_next s
    obtain ⟨u, hrest⟩ := ih t
    exact ⟨u, (run_succ k hstep).trans hrest⟩

/-- Settles O13: the commands by their cases, the run by induction on its length from the step that always answers next. -/
theorem everyCommandAndRunTerminates : Obligations.EveryCommandAndRunTerminates :=
  ⟨exec_answers_next, safeRun⟩

end Sys2Proof.Machine

/-!
What a command leaves in `STATUS` and `FL`, and the equations of the seven commands by the answer of the pure function each runs.
`STATUS` stays legal (R27) because every end of a command writes a legal value and nothing but a command writes it.
-/

namespace Sys2Proof.Machine

/-! ### The commands, given what their functions answer -/

theorem exec_enc_of_error {s : State} {e : ErrKind} (h : codecEncode s.ident s.fl = .error e) :
    exec .enc s = .next (raise e s) := by simp only [exec, execEnc, h]

theorem exec_enc_of_ok {s : State} {cs : Characters} (h : codecEncode s.ident s.fl = .ok cs) :
    exec .enc s = .next (done (setString cs s)) := by simp only [exec, execEnc, h]

theorem exec_dec_of_error {s : State} {e : ErrKind} (h : codecDecode s.slen s.sf = .error e) :
    exec .dec s = .next (raise e s) := by simp only [exec, execDec, h]

theorem exec_dec_of_ok {s : State} {g : Identifier} {f : FlagsValue} (h : codecDecode s.slen s.sf = .ok (g, f)) :
    exec .dec s = .next (done (setFlags f (setIdent g s))) := by simp only [exec, execDec, h]

theorem exec_trydec_of_error {s : State} {e : ErrKind} (h : codecDecode s.slen s.sf = .error e) :
    exec .trydec s = .next (probeFailed s) := by simp only [exec, execTrydec, h]

theorem exec_trydec_of_ok {s : State} {g : Identifier} {f : FlagsValue} (h : codecDecode s.slen s.sf = .ok (g, f)) :
    exec .trydec s = .next (done (setFlags f (setIdent g s))) := by simp only [exec, execTrydec, h]

theorem exec_b64d_of_error {s : State} {e : ErrKind} (h : b64d s.slen s.sf = .error e) :
    exec .b64d s = .next (raise e s) := by simp only [exec, execB64d, h]

theorem exec_b64d_of_ok {s : State} {b : Identifier} (h : b64d s.slen s.sf = .ok b) :
    exec .b64d s = .next (done (setIdent b s)) := by simp only [exec, execB64d, h]

theorem exec_pack_of_inRange {s : State} (h : flagsInRange s.fl = true) :
    exec .pack s = .next (done (setIdent (pack s.ident (flagsValue s.fl)) s)) := by simp [exec, execPack, h]

theorem exec_pack_of_not_inRange {s : State} (h : flagsInRange s.fl = false) :
    exec .pack s = .next (raise .range s) := by simp [exec, execPack, h]

theorem exec_unpack (s : State) :
    exec .unpack s = .next (done (setFlags (markerFlags s.ident) (setIdent (normalizeMarkers s.ident) s))) := rfl

theorem exec_b64e (s : State) : exec .b64e s = .next (done (setString (b64e s.ident) s)) := rfl

/-! ### `STATUS` after a command, a host action and a step -/

/-- R27: every kind but UnsupportedTypeError, which host software alone raises (R115), leaves a legal `STATUS`. -/
theorem statusLegal_errorStatus {e : ErrKind} (h : e ≠ .unsupportedType) : StatusLegal (errorStatus e) := by
  cases e with
  | unsupportedType => exact absurd rfl h
  | length => decide
  | format => decide
  | range => decide
  | invalidValue => decide
  | illegalCommand => decide

/-- R141, R142, R101: the three ends of a command, by what each writes to `STATUS`. -/
theorem exec_status_cases {i : Instr} {s t : State} (h : exec i s = .next t) :
    (∃ e, e ≠ .unsupportedType ∧ t.status = errorStatus e) ∨ t.status = probeFailedStatus ∨ t.status = okStatus := by
  rcases exec_cases h with ⟨e, rfl, he⟩ | ⟨-, rfl⟩ | ⟨-, -, -, -, rfl⟩ | ⟨-, rfl⟩ | ⟨-, -, rfl⟩ | ⟨-, rfl⟩ |
    ⟨b, -, ⟨-, rfl⟩ | ⟨-, -, rfl⟩⟩
  · refine .inl ⟨e, ?_, rfl⟩
    rintro rfl
    simp at he
  · exact .inr (.inl rfl)
  all_goals exact .inr (.inr rfl)

/-- A command needs no legal `STATUS` to leave one: it reads none and always writes it. -/
theorem exec_establishes_inv {i : Instr} {s t : State} (h : exec i s = .next t) : t.Inv := by
  unfold State.Inv
  rcases exec_status_cases h with ⟨e, he, hst⟩ | hst | hst
  · rw [hst]; exact statusLegal_errorStatus he
  · rw [hst]; decide
  · rw [hst]; decide

/-- R42, R44: of all writes only one to `CMD` reaches `STATUS`. -/
theorem hostWrite_preserves_inv {a : Addr} {v : Byte} {s t : State} (hs : s.Inv) (h : hostWrite exec a v s = .next t) :
    t.Inv := by
  rcases hostWrite_cases h with ⟨i, -, rfl⟩ | ⟨-, rfl⟩ | ⟨-, rfl⟩ | ⟨k, -, rfl⟩ | ⟨-, rfl⟩ | ⟨-, i, -, hrun⟩ | ⟨-, -, rfl⟩
  · exact hs
  · exact hs
  · exact hs
  · exact hs
  · exact hs
  · exact exec_establishes_inv hrun
  · exact statusLegal_errorStatus (by decide)

theorem performAction_preserves_inv {x : HostAction} {s t : State} (hs : s.Inv)
    (h : performAction exec x s = .next t) : t.Inv := by
  cases x with
  | wr a v => exact hostWrite_preserves_inv hs h
  | rd a => cases h; exact hs
  | reset => cases h; exact .inl rfl

theorem step_preserves_inv {s t : State} (hs : s.Inv) (h : step s = .next t) : t.Inv := by
  rcases step_cases h with ⟨-, rfl⟩ | ⟨x, rest, -, hact⟩
  · exact hs
  · exact performAction_preserves_inv (s := { s with script := rest }) hs hact

/-- Settles O42: the idle step by the hypothesis, every other step by the host action it performs. -/
theorem everyStepKeepsStatusLegal : Obligations.EveryStepKeepsStatusLegal :=
  fun _ _ hs h => step_preserves_inv hs h

/-- Settles O43: `STATUS` is zero after reset (R32), the first of the legal values. -/
theorem resetStateStatusLegal : Obligations.ResetStateStatusLegal := .inl rfl

/-! ### The range check, and what a command leaves in `FL` -/

/-- R24 read unsigned: the top two bits are zero exactly below 64. -/
theorem flagsInRange_iff_toNat_le (x : Byte) : flagsInRange x = true ↔ x.toNat ≤ 63 := by
  have hx : x.toNat < 256 := x.isLt
  rw [flagsInRange_iff, ← BitVec.toNat_inj, BitVec.extractLsb_toNat]
  simp only [Nat.shiftRight_eq_div_pow, BitVec.toNat_ofNat]
  omega

/-- R24 read as two's complement: 0..63 has the same bytes under both readings. -/
theorem toNat_le_iff_toInt (x : Byte) : x.toNat ≤ 63 ↔ 0 ≤ x.toInt ∧ x.toInt ≤ 63 := by
  have hx : x.toNat < 256 := x.isLt
  rw [BitVec.toInt_eq_toNat_cond]
  split <;> omega

/-- R99, R100: the byte a decoder writes to `FL` is in range. -/
theorem flagsByte_high_two (f : FlagsValue) : (flagsByte f).extractLsb 7 6 = 0b00#2 := high_two_append _ _

/-- R34, R24: a command leaves `FL` alone or writes a flags value's byte there. -/
theorem exec_fl_cases {i : Instr} {s t : State} (h : exec i s = .next t) : t.fl = s.fl ∨ ∃ f, t.fl = flagsByte f := by
  rcases exec_cases h with ⟨e, rfl, -⟩ | ⟨-, rfl⟩ | ⟨-, -, -, -, rfl⟩ | ⟨-, rfl⟩ | ⟨-, -, rfl⟩ | ⟨-, rfl⟩ |
    ⟨b, -, ⟨-, rfl⟩ | ⟨-, -, rfl⟩⟩
  · exact .inl rfl
  · exact .inl rfl
  · exact .inl rfl
  · exact .inl rfl
  · exact .inl rfl
  · exact .inr ⟨_, rfl⟩
  · exact .inl rfl
  · exact .inr ⟨_, rfl⟩

/-- Settles O33: the two readings by arithmetic, the commands by what each can write to `FL`. -/
theorem flagsRangeCheck : Obligations.FlagsRangeCheck := by
  refine ⟨fun x => ⟨flagsInRange_iff_toNat_le x, (flagsInRange_iff_toNat_le x).trans (toNat_le_iff_toInt x)⟩, fun i s => ?_⟩
  obtain ⟨t, ht⟩ := exec_answers_next i s
  refine ⟨t, ht, (exec_fl_cases ht).imp_right ?_⟩
  rintro ⟨f, hf⟩
  rw [hf]
  exact flagsByte_high_two f

end Sys2Proof.Machine

/-!
The marker bits and the payload (R21 to R23): replacing the markers is blind to the payload and the payload to the markers, so what
R23 says of a zero payload is what it says of AllZero.
-/

namespace Sys2Proof.Machine

/-! ### `normalize` and `pack`, byte by byte -/

/-- R23: the six marker bits are forced and the rest of the sixteen bytes stays. -/
theorem normalizeMarkers_bytes (b : Identifier) :
    (normalizeMarkers b)[7] = 0b0100#4 ++ b[7].extractLsb 3 0 ∧ (normalizeMarkers b)[8] = 0b10#2 ++ b[8].extractLsb 5 0 ∧
      ∀ (i : Nat) (_ : i < 16), i ≠ 7 → i ≠ 8 → (normalizeMarkers b)[i] = b[i] :=
  ⟨withMarkers_seven _ _ _, withMarkers_eight _ _ _, fun i h h7 h8 => withMarkers_other _ _ _ i h h7 h8⟩

/-- R23: a canonical identifier is its own normal form. -/
theorem normalizeMarkers_idempotent (b : Identifier) : normalizeMarkers (normalizeMarkers b) = normalizeMarkers b :=
  withMarkers_withMarkers _ _ _ _ _

/-- R23: the variant marker `10` is no part of AllZero. -/
theorem normalizeMarkers_ne_allZero (b : Identifier) : normalizeMarkers b ≠ allZero := by
  intro h
  have hmark : (normalizeMarkers b)[8].extractLsb 7 6 = 0b10#2 := withMarkers_high_two _ _ _
  rw [h] at hmark
  exact absurd hmark (by decide)

/-- A byte is its two nibbles. -/
theorem nibbles_append (x : Byte) : x.extractLsb 7 4 ++ x.extractLsb 3 0 = x := by revert x; decide

/-- A byte is its high two bits and its low six. -/
theorem two_six_append (x : Byte) : x.extractLsb 7 6 ++ x.extractLsb 5 0 = x := by revert x; decide

/-- A flags value is its two parts, as R70 lays them over the markers. -/
theorem flagsValue_append (f : FlagsValue) : f.extractLsb 5 4 ++ f.extractLsb 3 0 = f := by revert f; decide

/-- The low nibble of the flags read from the markers is the version marker. -/
theorem markerFlags_low_nibble (b : Identifier) : (markerFlags b).extractLsb 3 0 = b[7].extractLsb 7 4 := by
  have h : ∀ (x : BitVec 2) (y : BitVec 4), (x ++ y : FlagsValue).extractLsb 3 0 = y := by decide
  exact h _ _

/-- The high two bits of the flags read from the markers are the variant marker. -/
theorem markerFlags_high_two (b : Identifier) : (markerFlags b).extractLsb 5 4 = b[8].extractLsb 7 6 := by
  have h : ∀ (x : BitVec 2) (y : BitVec 4), (x ++ y : FlagsValue).extractLsb 5 4 = x := by decide
  exact h _ _

/-- R70, R96: the flags written over the markers are read back. -/
theorem markerFlags_pack (b : Identifier) (f : FlagsValue) : markerFlags (pack b f) = f :=
  (markerFlags_withMarkers _ _ _).trans (flagsValue_append f)

/-- Writing an identifier's own marker bits over its markers changes nothing. -/
theorem pack_markerFlags (b : Identifier) : pack b (markerFlags b) = b := by
  rw [pack, markerFlags_low_nibble, markerFlags_high_two]
  apply identifier_ext
  · rw [withMarkers_seven]; exact nibbles_append _
  · rw [withMarkers_eight]; exact two_six_append _
  · exact fun i h h7 h8 => withMarkers_other _ _ _ i h h7 h8

/-! ### A zero payload -/

/-- R23: the fourteen whole bytes, the low nibble and the low six bits are the 122 payload bits. -/
theorem payloadZero_iff (b : Identifier) :
    payloadZero b = true ↔ (∀ (i : Nat) (_ : i < 16), i ≠ 7 → i ≠ 8 → b[i] = 0x00#8) ∧
      b[7].extractLsb 3 0 = 0#4 ∧ b[8].extractLsb 5 0 = 0#6 := by
  constructor
  · intro h
    simp only [payloadZero, Bool.and_eq_true, beq_iff_eq, and_assoc] at h
    obtain ⟨h0, h1, h2, h3, h4, h5, h6, h9, h10, h11, h12, h13, h14, h15, hnibble, hsix⟩ := h
    refine ⟨fun i hi h7 h8 => ?_, hnibble, hsix⟩
    interval_cases i <;> trivial
  · rintro ⟨hbytes, hnibble, hsix⟩
    simp [payloadZero, hbytes, hnibble, hsix]

/-- The markers are no part of the payload. -/
theorem payloadZero_withMarkers (b : Identifier) (lo : BitVec 4) (hi : BitVec 2) :
    payloadZero (withMarkers b lo hi) = payloadZero b := by
  rw [Bool.eq_iff_iff, payloadZero_iff, payloadZero_iff, withMarkers_low_nibble, withMarkers_low_six]
  refine and_congr_left fun _ => forall₄_congr fun i h h7 h8 => ?_
  rw [withMarkers_other _ _ _ i h h7 h8]

theorem payloadZero_allZero : payloadZero allZero = true := by decide

theorem normalizeMarkers_allZero : normalizeMarkers allZero = emptySentinel := by decide

/-- Under the same markers an identifier with a zero payload is no other than AllZero. -/
theorem withMarkers_of_payloadZero {b : Identifier} (h : payloadZero b = true) (lo : BitVec 4) (hi : BitVec 2) :
    withMarkers b lo hi = withMarkers allZero lo hi := by
  obtain ⟨hb, hb7, hb8⟩ := (payloadZero_iff b).mp h
  obtain ⟨hz, hz7, hz8⟩ := (payloadZero_iff allZero).mp payloadZero_allZero
  apply identifier_ext
  · rw [withMarkers_seven, withMarkers_seven, hb7, hz7]
  · rw [withMarkers_eight, withMarkers_eight, hb8, hz8]
  · intro i hlt h7 h8
    rw [withMarkers_other _ _ _ i hlt h7 h8, withMarkers_other _ _ _ i hlt h7 h8, hb i hlt h7 h8, hz i hlt h7 h8]

/-- R23: EmptySentinel is the normal form of the zero payload and of nothing else. -/
theorem normalizeMarkers_eq_emptySentinel_iff (b : Identifier) :
    normalizeMarkers b = emptySentinel ↔ payloadZero b = true := by
  constructor
  · intro h
    have hkept : payloadZero (normalizeMarkers b) = payloadZero b := payloadZero_withMarkers _ _ _
    rw [← hkept, h]
    decide
  · exact fun h => (withMarkers_of_payloadZero h _ _).trans normalizeMarkers_allZero

/-- R23: the identifiers with a zero payload are AllZero under the 64 settings of the markers, each under one of them. -/
theorem payloadZero_iff_existsUnique_pack (b : Identifier) :
    payloadZero b = true ↔ ∃! m : FlagsValue, b = pack allZero m := by
  constructor
  · intro h
    refine ⟨markerFlags b, ?_, fun m hm => ?_⟩
    · calc b = pack b (markerFlags b) := (pack_markerFlags b).symm
        _ = pack allZero (markerFlags b) := withMarkers_of_payloadZero h _ _
    · rw [hm, markerFlags_pack]
  · rintro ⟨m, rfl, -⟩
    exact (payloadZero_withMarkers _ _ _).trans payloadZero_allZero

/-- Settles O31, clause by clause. -/
theorem normalizeAndPayload : Obligations.NormalizeAndPayload :=
  ⟨normalizeMarkers_bytes, payloadZero_iff, normalizeMarkers_eq_emptySentinel_iff, normalizeMarkers_idempotent,
    normalizeMarkers_ne_allZero, payloadZero_iff_existsUnique_pack⟩

end Sys2Proof.Machine

/-!
The commands on the reset state (R32, R162), and that a command's results depend on the registers it reads alone (R136 with the read
column of R34): each result is a function of those registers, so the proofs carry the equal registers into that function.
-/

namespace Sys2Proof.Machine

/-! ### The commands on the reset state -/

/-- R25, R95: a wrong length is found before any character is looked at. -/
theorem b64d_of_length_ne {n : Byte} (h : n ≠ 22#8) (cs : Characters) : b64d n cs = .error .length := by
  rcases b64d_cases n cs with ⟨-, e⟩ | ⟨hn, -⟩ | ⟨hn, -⟩
  · exact e
  · exact absurd hn h
  · exact absurd hn h

/-- R97: `decode` passes the error of `b64d` on. -/
theorem codecDecode_of_b64d_error {n : Byte} {cs : Characters} {e : ErrKind} (h : b64d n cs = .error e) :
    codecDecode n cs = .error e := by simp only [codecDecode, h]

theorem codecDecode_of_length_ne {n : Byte} (h : n ≠ 22#8) (cs : Characters) : codecDecode n cs = .error .length :=
  codecDecode_of_b64d_error (b64d_of_length_ne h cs)

/-- R22, R82: the two reserved identifiers are refused under every flags value. -/
theorem codecEncode_of_reserved {b : Identifier} {fl : Byte} (hfl : flagsInRange fl = true)
    (hb : b = allZero ∨ b = emptySentinel) : codecEncode b fl = .error .invalidValue := by
  rcases codecEncode_cases b fl with ⟨h, -⟩ | ⟨-, -, e⟩ | ⟨-, hz, he, -⟩
  · rw [hfl] at h; cases h
  · exact e
  · rcases hb with rfl | rfl
    · exact absurd rfl hz
    · exact absurd rfl he

/-- R32: the sixteen zero bytes of reset are AllZero. -/
theorem reset_ident : State.reset.ident = allZero := by decide

theorem reset_slen_ne : State.reset.slen ≠ 22#8 := by decide

theorem exec_enc_reset : exec .enc State.reset = .next (raise .invalidValue State.reset) :=
  exec_enc_of_error (codecEncode_of_reserved (by decide) (.inl reset_ident))

theorem exec_dec_reset : exec .dec State.reset = .next (raise .length State.reset) :=
  exec_dec_of_error (codecDecode_of_length_ne reset_slen_ne _)

theorem exec_trydec_reset : exec .trydec State.reset = .next (probeFailed State.reset) :=
  exec_trydec_of_error (codecDecode_of_length_ne reset_slen_ne _)

theorem exec_b64d_reset : exec .b64d State.reset = .next (raise .length State.reset) :=
  exec_b64d_of_error (b64d_of_length_ne reset_slen_ne _)

/-- R32: NUL, the character of every place of `SF` after reset, is outside the alphabet. -/
theorem reset_sf (k : Fin 22) : State.reset.sf[k] = 0x00#8 ∧ inAlpha State.reset.sf[k] = false := by
  have h : State.reset.sf[k] = 0x00#8 := Vector.getElem_replicate _
  rw [h]
  decide

/-- Settles O15: the registers by their values, the four commands by the check each of them fails. -/
theorem resetStateIsAllZero : Obligations.ResetStateIsAllZero :=
  ⟨reset_ident, rfl, rfl, reset_sf, rfl, rfl, rfl, exec_enc_reset, exec_dec_reset, exec_trydec_reset, exec_b64d_reset⟩

/-- R80: flags of zero over AllZero. -/
theorem pack_allZero_zero : pack allZero 0#6 = allZero := by decide

/-- R67, R81: zero sextets are the letter `A`. -/
theorem b64e_allZero : b64e allZero = Vector.replicate 22 0x41#8 := by decide

/-- R162: flags of zero go over markers of zero, and `STATUS` alone changes. -/
theorem exec_pack_reset : exec .pack State.reset = .next { State.reset with status := okStatus } := by
  have hident : pack State.reset.ident (flagsValue State.reset.fl) = State.reset.ident := by
    rw [reset_ident]; exact pack_allZero_zero
  rw [exec_pack_of_inRange (by decide), hident]
  rfl

/-- R162: the markers of AllZero are the flags 0, and AllZero with its markers restored is EmptySentinel. -/
theorem exec_unpack_reset :
    exec .unpack State.reset = .next { State.reset with ident := emptySentinel, status := okStatus } := by
  have hflags : markerFlags allZero = 0#6 := by decide
  rw [exec_unpack, reset_ident, hflags, normalizeMarkers_allZero]
  rfl

/-- R162: AllZero is encoded like any other sixteen bytes. -/
theorem exec_b64e_reset : exec .b64e State.reset =
    .next { State.reset with sf := Vector.replicate 22 0x41#8, slen := 22#8, status := okStatus } := by
  rw [exec_b64e, reset_ident, b64e_allZero]
  rfl

/-- Settles O16: the units by the values of their functions on AllZero, the composed commands by O15. -/
theorem commandsOnResetOperands : Obligations.CommandsOnResetOperands := by
  refine ⟨exec_pack_reset, exec_unpack_reset, exec_b64e_reset, ?_⟩
  rintro i (rfl | rfl | rfl)
  · exact ⟨_, exec_enc_reset, by decide⟩
  · exact ⟨_, exec_dec_reset, by decide⟩
  · exact ⟨_, exec_trydec_reset, by decide⟩

/-! ### What a command writes depends on what it reads -/

/-- R95: `b64d` reads the characters only when the length is 22. -/
theorem b64d_congr {n n' : Byte} {cs cs' : Characters} (hn : n = n') (h : n = 22#8 → cs = cs') :
    b64d n cs = b64d n' cs' := by
  subst hn
  by_cases hlen : n = 22#8
  · rw [h hlen]
  · rw [b64d_of_length_ne hlen, b64d_of_length_ne hlen]

theorem codecDecode_congr {n n' : Byte} {cs cs' : Characters} (hn : n = n') (h : n = 22#8 → cs = cs') :
    codecDecode n cs = codecDecode n' cs' := by
  simp only [codecDecode, b64d_congr hn h]

/-- R70: the flags in the markers are read from bytes 7 and 8. -/
theorem markerFlags_congr {b d : Identifier} (h7 : b[7] = d[7]) (h8 : b[8] = d[8]) : markerFlags b = markerFlags d := by
  simp only [markerFlags, h7, h8]

/-- R21: new markers leave bytes 7 and 8 that depend on those two bytes alone. -/
theorem withMarkers_congr {b d : Identifier} (h7 : b[7] = d[7]) (h8 : b[8] = d[8]) (lo : BitVec 4) (hi : BitVec 2) :
    (withMarkers b lo hi)[7] = (withMarkers d lo hi)[7] ∧ (withMarkers b lo hi)[8] = (withMarkers d lo hi)[8] := by
  simp only [withMarkers_seven, withMarkers_eight, h7, h8, and_self]

/-- R140, R141: no error leaves the `STATUS` of success. -/
theorem errorStatus_ne_ok (e : ErrKind) : errorStatus e ≠ 0x01#8 := by
  intro h
  have hbad := statusOk_errorStatus e
  rw [h] at hbad
  exact absurd hbad (by decide)

section
variable {s s' : State}

/-- R85: `ENC` reads `ID` and `FL`. -/
theorem exec_enc_reads (hid : s.ident = s'.ident) (hfl : s.fl = s'.fl) :
    ∃ t t', exec .enc s = .next t ∧ exec .enc s' = .next t' ∧ t.status = t'.status ∧
      (t.status = 0x01#8 → t.sf = t'.sf ∧ t.slen = t'.slen) := by
  have hsame : codecEncode s'.ident s'.fl = codecEncode s.ident s.fl := by rw [hid, hfl]
  cases h : codecEncode s.ident s.fl with
  | error e =>
    exact ⟨_, _, exec_enc_of_error h, exec_enc_of_error (hsame.trans h), rfl, fun hok => absurd hok (errorStatus_ne_ok e)⟩
  | ok cs => exact ⟨_, _, exec_enc_of_ok h, exec_enc_of_ok (hsame.trans h), rfl, fun _ => ⟨rfl, rfl⟩⟩

/-- R83: `PACK` reads bytes 7 and 8 and `FL`. -/
theorem exec_pack_reads (h7 : s.ident[7] = s'.ident[7]) (h8 : s.ident[8] = s'.ident[8]) (hfl : s.fl = s'.fl) :
    ∃ t t', exec .pack s = .next t ∧ exec .pack s' = .next t' ∧ t.status = t'.status ∧
      t.ident[7] = t'.ident[7] ∧ t.ident[8] = t'.ident[8] := by
  cases h : flagsInRange s.fl with
  | false => exact ⟨_, _, exec_pack_of_not_inRange h, exec_pack_of_not_inRange (hfl ▸ h), rfl, h7, h8⟩
  | true =>
    refine ⟨_, _, exec_pack_of_inRange h, exec_pack_of_inRange (hfl ▸ h), rfl, ?_⟩
    simp only [done_ident, setIdent_ident, ← hfl]
    exact withMarkers_congr h7 h8 _ _

/-- R99: `UNPACK` reads bytes 7 and 8. -/
theorem exec_unpack_reads (h7 : s.ident[7] = s'.ident[7]) (h8 : s.ident[8] = s'.ident[8]) :
    ∃ t t', exec .unpack s = .next t ∧ exec .unpack s' = .next t' ∧ t.status = t'.status ∧ t.fl = t'.fl ∧
      t.ident[7] = t'.ident[7] ∧ t.ident[8] = t'.ident[8] :=
  ⟨_, _, exec_unpack s, exec_unpack s', rfl, congrArg flagsByte (markerFlags_congr h7 h8), withMarkers_congr h7 h8 _ _⟩

/-- R84: `B64E` reads `ID`. -/
theorem exec_b64e_reads (hid : s.ident = s'.ident) :
    ∃ t t', exec .b64e s = .next t ∧ exec .b64e s' = .next t' ∧ t.status = t'.status ∧ t.sf = t'.sf ∧
      t.slen = t'.slen := by
  have h' : exec .b64e s' = .next (done (setString (b64e s.ident) s')) := by rw [exec_b64e, hid]
  exact ⟨_, _, exec_b64e s, h', rfl, rfl, rfl⟩

/-- R98: `B64D` reads `SLEN`, and `SF` when the length is 22. -/
theorem exec_b64d_reads (hlen : s.slen = s'.slen) (hsf : s.slen = 22#8 → s.sf = s'.sf) :
    ∃ t t', exec .b64d s = .next t ∧ exec .b64d s' = .next t' ∧ t.status = t'.status ∧
      (t.status = 0x01#8 → t.ident = t'.ident) := by
  have hsame : b64d s'.slen s'.sf = b64d s.slen s.sf := (b64d_congr hlen hsf).symm
  cases h : b64d s.slen s.sf with
  | error e =>
    exact ⟨_, _, exec_b64d_of_error h, exec_b64d_of_error (hsame.trans h), rfl, fun hok => absurd hok (errorStatus_ne_ok e)⟩
  | ok b => exact ⟨_, _, exec_b64d_of_ok h, exec_b64d_of_ok (hsame.trans h), rfl, fun _ => rfl⟩

/-- R100: `DEC` reads what `B64D` reads. -/
theorem exec_dec_reads (hlen : s.slen = s'.slen) (hsf : s.slen = 22#8 → s.sf = s'.sf) :
    ∃ t t', exec .dec s = .next t ∧ exec .dec s' = .next t' ∧ t.status = t'.status ∧
      (t.status = 0x01#8 → t.ident = t'.ident ∧ t.fl = t'.fl) := by
  have hsame : codecDecode s'.slen s'.sf = codecDecode s.slen s.sf := (codecDecode_congr hlen hsf).symm
  cases h : codecDecode s.slen s.sf with
  | error e =>
    exact ⟨_, _, exec_dec_of_error h, exec_dec_of_error (hsame.trans h), rfl, fun hok => absurd hok (errorStatus_ne_ok e)⟩
  | ok r => exact ⟨_, _, exec_dec_of_ok h, exec_dec_of_ok (hsame.trans h), rfl, fun _ => ⟨rfl, rfl⟩⟩

/-- R101: `TRYDEC` reads what `DEC` reads. -/
theorem exec_trydec_reads (hlen : s.slen = s'.slen) (hsf : s.slen = 22#8 → s.sf = s'.sf) :
    ∃ t t', exec .trydec s = .next t ∧ exec .trydec s' = .next t' ∧ t.status = t'.status ∧
      (t.status = 0x01#8 → t.ident = t'.ident ∧ t.fl = t'.fl) := by
  have hsame : codecDecode s'.slen s'.sf = codecDecode s.slen s.sf := (codecDecode_congr hlen hsf).symm
  cases h : codecDecode s.slen s.sf with
  | error e =>
    refine ⟨_, _, exec_trydec_of_error h, exec_trydec_of_error (hsame.trans h), rfl, fun hok => ?_⟩
    exact absurd (show probeFailedStatus = 0x01#8 from hok) (by decide)
  | ok r => exact ⟨_, _, exec_trydec_of_ok h, exec_trydec_of_ok (hsame.trans h), rfl, fun _ => ⟨rfl, rfl⟩⟩

end

/-- Settles O46, command by command. -/
theorem commandsDependOnlyOnWhatTheyRead : Obligations.CommandsDependOnlyOnWhatTheyRead :=
  fun _ _ => ⟨exec_enc_reads, exec_pack_reads, exec_unpack_reads, exec_b64e_reads,
    fun hlen hsf => ⟨exec_b64d_reads hlen hsf, exec_dec_reads hlen hsf, exec_trydec_reads hlen hsf⟩⟩

end Sys2Proof.Machine

/-!
The FlagsAdapter over the codec (R115 to R119). A call is a list of host actions around one command: the loads before it are one
update of the registers, and the reads after it return the registers the command leaves, so the answer is the codec's own.
-/

namespace Sys2Proof.Machine

/-! ### The presented flags (R116) -/

/-- R116: a value in 0..255 is presented as itself. -/
theorem toNat_presentFlags {v : Int} (h : 0 ≤ v ∧ v ≤ 255) : ((presentFlags v).toNat : Int) = v := by
  rw [presentFlags, if_pos h, BitVec.toNat_ofInt]
  omega

/-- R116: any other value is presented as a byte out of range (log 13). -/
theorem presentFlags_of_not_byte {v : Int} (h : ¬ (0 ≤ v ∧ v ≤ 255)) : presentFlags v = 0xFF#8 := if_neg h

/-- R116: presenting a value neither brings it into the range of R24 nor takes it out. -/
theorem flagsInRange_presentFlags (v : Int) : flagsInRange (presentFlags v) = true ↔ 0 ≤ v ∧ v ≤ 63 := by
  by_cases h : 0 ≤ v ∧ v ≤ 255
  · have hv := toNat_presentFlags h
    rw [flagsInRange_iff_toNat_le]
    omega
  · rw [presentFlags_of_not_byte h]
    refine iff_of_false (by decide) ?_
    omega

theorem flagsInRange_presentFlags_eq_false (v : Int) : flagsInRange (presentFlags v) = false ↔ v < 0 ∨ 63 < v := by
  rw [← Bool.not_eq_true, flagsInRange_presentFlags]
  omega

/-- R82, R85: `ENC` ends in RangeError exactly when the range check, its first check, fails. -/
theorem exec_enc_status_range_iff (s : State) :
    ∃ t, exec .enc s = .next t ∧ (t.status = 0x06#8 ↔ flagsInRange s.fl = false) := by
  rcases codecEncode_cases s.ident s.fl with ⟨hfl, e⟩ | ⟨hfl, -, e⟩ | ⟨hfl, -, -, e⟩
  · exact ⟨_, exec_enc_of_error e, iff_of_true rfl hfl⟩
  · exact ⟨_, exec_enc_of_error e, iff_of_false (by rw [raise_status]; decide) (by rw [hfl]; decide)⟩
  · exact ⟨_, exec_enc_of_ok e, iff_of_false (by rw [done_status]; decide) (by rw [hfl]; decide)⟩

/-- Settles O51: the byte presented, then the range check of `ENC` on that byte. -/
theorem presentedFlagsKeepTheVerdict : Obligations.PresentedFlagsKeepTheVerdict := by
  intro s v
  refine ⟨toNat_presentFlags, fun h => ?_, ?_⟩
  · rw [presentFlags_of_not_byte (by omega)]
    decide
  · obtain ⟨t, ht, hrange⟩ := exec_enc_status_range_iff { s with fl := presentFlags v }
    exact ⟨t, ht, hrange.trans (flagsInRange_presentFlags_eq_false v)⟩

/-! ### `encodeWithEnum` (R116) -/

/-- A byte written in a script as its number. -/
@[simp] theorem scriptByte_toNat (x : Byte) : scriptByte x.toNat = x := by simp [scriptByte]

/-- A host write to `FL`. -/
theorem performAction_wr_fl (v : Byte) (s : State) :
    performAction exec (.wr (addressOf .fl) v) s = .next { s with fl := v } := by
  simp only [performAction, hostWrite, locate_addressOf]

/-- A host write to `SLEN`. -/
theorem performAction_wr_slen (v : Byte) (s : State) :
    performAction exec (.wr (addressOf .slen) v) s = .next { s with slen := v } := by
  simp only [performAction, hostWrite, locate_addressOf]

/-- A host read of `STATUS`. -/
theorem performAction_rd_status (s : State) :
    performAction exec (.rd (addressOf .status)) s = .next { s with reads := s.reads ++ [s.status] } := by
  simp only [performAction, hostRead, readReg, locate_addressOf]

/-- A host read of `FL`. -/
theorem performAction_rd_fl (s : State) :
    performAction exec (.rd (addressOf .fl)) s = .next { s with reads := s.reads ++ [s.fl] } := by
  simp only [performAction, hostRead, readReg, locate_addressOf]

/-- R66: `LDID` of an identifier's own bytes. -/
theorem performAll_load_ident (g : Identifier) (s : State) :
    performAll exec (writesFrom 0x00 (g.toList.map (·.toNat))) s = .next { s with ident := g } := by
  have hg : (Vector.ofFn fun i : Fin 16 => if 0x00 ≤ i.val ∧ i.val < 0x00 + (g.toList.map (·.toNat)).length then
      scriptByte ((g.toList.map (·.toNat)).getD (i.val - 0x00) 0) else s.ident[i]) = g := by
    ext i hi : 1
    simp [List.getD]
  rw [performAll_writesFrom_ident _ _ _ _ (by simp), hg]

/-- R116: what the call's actions do, given what `ENC` does on the registers they load. -/
theorem performAll_encodeActions {g : Identifier} {v : Int} {s t : State}
    (h : exec .enc { s with fl := presentFlags v, ident := g } = .next t) :
    performAll exec (encodeActions g v) s = .next { t with reads := t.reads ++ t.status :: t.sf.toList } := by
  have hload : performAll exec (writesFrom 0x00 (g.toList.map (·.toNat))) { s with fl := presentFlags v } =
      .next { s with fl := presentFlags v, ident := g } := performAll_load_ident g _
  have hcmd : performAction exec (commandAction .enc) { s with fl := presentFlags v, ident := g } = .next t :=
    (performAction_command exec .enc _).trans h
  simp only [encodeActions, expandScript, expandLine, List.append_assoc, List.cons_append, List.nil_append]
  rw [performAll_cons _ (performAction_wr_fl _ s), performAll_append _ hload, performAll_cons _ hcmd,
    performAll_cons _ (performAction_rd_status t), performAll_readsFrom]
  simp only [readReg_reads, reads_sf, List.append_assoc, List.cons_append, List.nil_append]

/-- R116: the call's answer, given what `ENC` does on the registers it loads. -/
theorem encodeWithEnum_of_exec {e : EnumValue} {g : Identifier} {s t : State} (hk : recognizedKind e.kind = true)
    (h : exec .enc { s with fl := presentFlags e.value, ident := g } = .next t) (hreads : t.reads = s.reads) :
    encodeWithEnum g e s =
      .next ({ t with reads := s.reads ++ t.status :: t.sf.toList }, encodeReply (t.status :: t.sf.toList)) := by
  rw [encodeWithEnum, if_pos hk, hostCall_next _ (performAll_encodeActions h) (congrArg (· ++ _) hreads), hreads]

/-- R116: `encodeWithEnum` answers the error of `encode` on the presented byte by its code. -/
theorem encodeWithEnum_of_error {e : EnumValue} {g : Identifier} {x : ErrKind} (s : State)
    (hk : recognizedKind e.kind = true) (h : codecEncode g (presentFlags e.value) = .error x) :
    encodeWithEnum g e s =
      .next ({ raise x { s with fl := presentFlags e.value, ident := g } with
        reads := s.reads ++ errorStatus x :: s.sf.toList }, .error (errCode x)) := by
  rw [encodeWithEnum_of_exec hk (exec_enc_of_error h) rfl, raise_status, encodeReply_error]
  rfl

/-- R116: `encodeWithEnum` answers the text of `encode` on the presented byte. -/
theorem encodeWithEnum_of_ok {e : EnumValue} {g : Identifier} {cs : Characters} (s : State)
    (hk : recognizedKind e.kind = true) (h : codecEncode g (presentFlags e.value) = .ok cs) :
    encodeWithEnum g e s =
      .next ({ done (setString cs { s with fl := presentFlags e.value, ident := g }) with
        reads := s.reads ++ okStatus :: cs.toList }, .ok cs) := by
  rw [encodeWithEnum_of_exec hk (exec_enc_of_ok h) rfl, done_status, done_sf, setString_sf, encodeReply_ok]
  rfl

/-- R82, R116: a value outside 0..63 is a RangeError of `encode` whatever the identifier. -/
theorem codecEncode_presentFlags_out (g : Identifier) {v : Int} (h : v < 0 ∨ 63 < v) :
    codecEncode g (presentFlags v) = .error .range :=
  if_pos ((flagsInRange_presentFlags_eq_false v).mpr h)

/-- Settles O54: by what `encode` answers on the presented byte. -/
theorem encodeWithEnumAnswersTheCodec : Obligations.EncodeWithEnumAnswersTheCodec := by
  intro e g s hk
  have hpresented : 0 ≤ e.value ∧ e.value ≤ 63 → BitVec.ofInt 8 e.value = presentFlags e.value :=
    fun hv => (if_pos (by omega)).symm
  cases h : codecEncode g (presentFlags e.value) with
  | error x =>
    refine ⟨_, _, encodeWithEnum_of_error s hk h, rfl, rfl, rfl, rfl, fun hv => ?_, fun hv => ?_⟩
    · rw [codecEncode_presentFlags_out g hv] at h
      cases h
      rfl
    · rw [hpresented hv, h]
      exact ⟨fun y hy => by cases hy; rfl, fun cs hcs => nomatch hcs⟩
  | ok cs =>
    refine ⟨_, _, encodeWithEnum_of_ok s hk h, rfl, rfl, rfl, rfl, fun hv => ?_, fun hv => ?_⟩
    · rw [codecEncode_presentFlags_out g hv] at h
      cases h
    · rw [hpresented hv, h]
      exact ⟨fun y hy => (nomatch hy), fun ds hds => by cases hds; exact ⟨rfl, rfl, rfl⟩⟩

/-! ### `decodeWithEnum` (R117, R119) -/

/-- R117: the registers as the host leaves them before `DEC`: the string's first 22 characters over `SF`, its length in `SLEN`. -/
def presentString (c : List Byte) (s : State) : State :=
  { s with
    sf := Vector.ofFn fun k : Fin 22 => c.getD k.val s.sf[k]
    slen := scriptByte (min c.length 255) }

@[simp] theorem presentString_ident (c : List Byte) (s : State) : (presentString c s).ident = s.ident := rfl
@[simp] theorem presentString_fl (c : List Byte) (s : State) : (presentString c s).fl = s.fl := rfl
@[simp] theorem presentString_reads (c : List Byte) (s : State) : (presentString c s).reads = s.reads := rfl

/-- R25, log 13: `SLEN` is 22 for a string of 22 characters and for no other, however long. -/
theorem presentString_slen_eq_iff (c : List Byte) (s : State) : (presentString c s).slen = 22#8 ↔ c.length = 22 := by
  rw [presentString, scriptByte, ← BitVec.toNat_inj, BitVec.toNat_ofNat, BitVec.toNat_ofNat]
  omega

/-- A string of 22 characters covers the whole of `SF`. -/
theorem presentString_sf {c : List Byte} (h : c.length = 22) (s : State) : (presentString c s).sf = charsOfBytes c := by
  ext k hk : 1
  simp [presentString, charsOfBytes, List.getD, h]

/-- The loads before `DEC`. -/
theorem performAll_load_sf (c : List Byte) (s : State) :
    performAll exec (writesFrom 0x20 ((c.take 22).map (·.toNat))) s =
      .next { s with sf := Vector.ofFn fun k : Fin 22 => c.getD k.val s.sf[k] } := by
  have hc : (Vector.ofFn fun k : Fin 22 => if 0 ≤ k.val ∧ k.val < 0 + ((c.take 22).map (·.toNat)).length then
      scriptByte (((c.take 22).map (·.toNat)).getD (k.val - 0) 0) else s.sf[k]) =
        Vector.ofFn fun k : Fin 22 => c.getD k.val s.sf[k] := by
    ext k hk : 1
    by_cases hlen : k < c.length <;> simp [hlen, List.getD]
  rw [performAll_writesFrom_sf _ _ 0x20 0 _ rfl (by simp), hc]

/-- R117: what the call's actions do, given what `DEC` does on the string presented. -/
theorem performAll_decodeActions {c : List Byte} {s t : State} (h : exec .dec (presentString c s) = .next t) :
    performAll exec (decodeActions c) s = .next { t with reads := t.reads ++ [t.status] } := by
  have hcmd : performAction exec (commandAction .dec) (presentString c s) = .next t :=
    (performAction_command exec .dec _).trans h
  have hslen : performAction exec (.wr (addressOf .slen) (scriptByte (min c.length 255)))
      { s with sf := Vector.ofFn fun k : Fin 22 => c.getD k.val s.sf[k] } = .next (presentString c s) :=
    performAction_wr_slen _ _
  simp only [decodeActions, expandScript, expandLine, List.cons_append, List.nil_append]
  rw [performAll_append _ (performAll_load_sf c s), performAll_cons _ hslen, performAll_cons _ hcmd,
    performAll_cons _ (performAction_rd_status t), performAll_nil]

/-- R117: the reads after a success return `ID` and then `FL`. -/
theorem performAll_decodedReads (s : State) :
    performAll exec decodedReads s = .next { s with reads := s.reads ++ (s.ident.toList ++ [s.fl]) } := by
  simp only [decodedReads, expandScript, expandLine, List.append_nil]
  rw [performAll_append _ (performAll_readsFrom exec 16 0x00 s), reads_ident,
    performAll_cons _ (performAction_rd_fl _), performAll_nil, List.append_assoc]

/-- R117: `decodeWithEnum` answers the error of `decode` by its code, having read `STATUS` alone. -/
theorem decodeWithEnum_of_error {k : IntKind} {c : List Byte} {s : State} {x : ErrKind} (hk : recognizedKind k = true)
    (h : codecDecode (presentString c s).slen (presentString c s).sf = .error x) :
    decodeWithEnum k c s =
      .next ({ raise x (presentString c s) with reads := s.reads ++ [errorStatus x] }, .error (errCode x)) := by
  rw [decodeWithEnum, if_pos hk, hostCall_next _ (performAll_decodeActions (exec_dec_of_error h)) rfl, raise_status,
    List.getD_cons_zero, if_neg (by simp), statusErr_errorStatus]
  rfl

/-- R97, R117: a flags value as the byte in `FL` has the same number. -/
theorem toNat_flagsByte (f : FlagsValue) : (flagsByte f).toNat = f.toNat := by revert f; decide

/-- R117: `decodeWithEnum` answers what `decode` answers, having read `STATUS`, `ID` and `FL`. -/
theorem decodeWithEnum_of_ok {k : IntKind} {c : List Byte} {s : State} {g : Identifier} {f : FlagsValue}
    (hk : recognizedKind k = true) (h : codecDecode (presentString c s).slen (presentString c s).sf = .ok (g, f)) :
    decodeWithEnum k c s =
      .next ({ done (setFlags f (setIdent g (presentString c s))) with
        reads := s.reads ++ okStatus :: (g.toList ++ [flagsByte f]) }, .ok (g, ⟨k, (f.toNat : Int)⟩)) := by
  rw [decodeWithEnum, if_pos hk, hostCall_next _ (performAll_decodeActions (exec_dec_of_ok h)) rfl, done_status,
    List.getD_cons_zero, if_pos statusOk_okStatus, hostCall_next _ (performAll_decodedReads _) rfl]
  simp [decodeReply_append, toNat_flagsByte]

/-- R119: every recognized kind holds 0..63. -/
theorem enumBounded_flags {k : IntKind} (hk : recognizedKind k = true) (f : FlagsValue) :
    enumBounded ⟨k, (f.toNat : Int)⟩ = true := by
  have hf : f.toNat < 64 := f.isLt
  cases k with
  | unrecognized => cases hk
  | i8 | u8 | i16 | u16 | i32 | u32 | i64 | u64 =>
    simp only [enumBounded, kindHolds, decide_eq_true_eq]
    omega

/-- Settles O55: by the length of the string, then by what `decode` answers on its characters. -/
theorem decodeWithEnumAnswersTheCodec : Obligations.DecodeWithEnumAnswersTheCodec := by
  intro k c s hk
  refine ⟨fun hlen => ?_, fun hlen => ?_⟩
  · have h := codecDecode_of_length_ne (mt (presentString_slen_eq_iff c s).mp hlen) (presentString c s).sf
    exact ⟨_, decodeWithEnum_of_error hk h, rfl, rfl, rfl⟩
  · have hpresented : codecDecode (presentString c s).slen (presentString c s).sf = codecDecode 22#8 (charsOfBytes c) := by
      rw [(presentString_slen_eq_iff c s).mpr hlen, presentString_sf hlen]
    refine ⟨fun x hx => ?_, fun g f hgf => ⟨enumBounded_flags hk f, ?_⟩⟩
    · exact ⟨_, decodeWithEnum_of_error hk (hpresented.trans hx), rfl, rfl, rfl⟩
    · exact ⟨_, decodeWithEnum_of_ok hk (hpresented.trans hgf), rfl, rfl, rfl⟩

end Sys2Proof.Machine

/-!
The register space as the host sees it (20_memory.md). Every address that is named is the address of one location; a read of it
gives that location's byte, a write to it stores there or, at `CMD`, starts a command. Two states with the same bytes at every
address and the same host are the same state, so what a write does is said whole by what reads give after it.
-/

namespace Sys2Proof.Machine

/-! ### What a read gives at each location (R43, R44) -/

section
variable (s : State)

@[simp] theorem readReg_ident (i : Fin 16) : readReg s (addressOf (.ident i)) = s.ident[i] := by
  simp only [readReg, locate_addressOf]

@[simp] theorem readReg_fl : readReg s (addressOf .fl) = s.fl := by simp only [readReg, locate_addressOf]

@[simp] theorem readReg_slen : readReg s (addressOf .slen) = s.slen := by simp only [readReg, locate_addressOf]

@[simp] theorem readReg_status : readReg s (addressOf .status) = s.status := by simp only [readReg, locate_addressOf]

@[simp] theorem readReg_cmd : readReg s (addressOf .cmd) = 0x00#8 := by simp only [readReg, locate_addressOf]

@[simp] theorem readReg_sf (k : Fin 22) : readReg s (addressOf (.sf k)) = s.sf[k] := by
  simp only [readReg, locate_addressOf]

/-- R44: the reserved addresses read zero. -/
theorem readReg_of_locate_none {a : Addr} (h : locate a = none) : readReg s a = 0x00#8 := by simp only [readReg, h]

end

/-- R20: the 41 registers are all the block has, and every one of them can be read, so reads at every address and the host's two
lists determine the state. -/
theorem state_eq_of_readReg {s t : State} (hread : ∀ a, readReg s a = readReg t a) (hhost : SameHost s t) : s = t := by
  have hident : s.ident = t.ident := by
    ext i hi : 1
    simpa using hread (addressOf (.ident ⟨i, hi⟩))
  have hsf : s.sf = t.sf := by
    ext k hk : 1
    simpa using hread (addressOf (.sf ⟨k, hk⟩))
  have hfl : s.fl = t.fl := by simpa using hread (addressOf .fl)
  have hslen : s.slen = t.slen := by simpa using hread (addressOf .slen)
  have hstatus : s.status = t.status := by simpa using hread (addressOf .status)
  obtain ⟨hscript, hreads⟩ := hhost
  cases s
  cases t
  simp_all

/-- Settles O9: each address by the location it names; a read itself adds only to what the host has read. -/
theorem hostReadByAddress : Obligations.HostReadByAddress := by
  intro s a
  refine ⟨fun i h => ?_, ?_, ?_, ?_, fun k h => ?_, ?_, hostRead a s, rfl, ⟨rfl, rfl, rfl, rfl⟩, rfl⟩
  · rw [← addressOf_of_locate a _ (locate_ident a i h), readReg_ident]
  · rintro rfl; exact readReg_fl s
  · rintro rfl; exact readReg_slen s
  · rintro rfl; exact readReg_status s
  · rw [← addressOf_of_locate a _ (locate_sf a k h), readReg_sf]
  · rintro (rfl | h)
    · exact readReg_cmd s
    · exact readReg_of_locate_none s (locate_reserved a h)

/-! ### What a write does at each location (R42, R44) -/

section
variable (v : Byte) (s : State)

/-- A host write to a byte of `ID`. -/
theorem performAction_wr_ident (i : Fin 16) :
    performAction exec (.wr (addressOf (.ident i)) v) s = .next { s with ident := s.ident.set i.val v } := by
  simp only [performAction, hostWrite, locate_addressOf]

/-- A host write to a character of `SF`. -/
theorem performAction_wr_sf (k : Fin 22) :
    performAction exec (.wr (addressOf (.sf k)) v) s = .next { s with sf := s.sf.set k.val v } := by
  simp only [performAction, hostWrite, locate_addressOf]

/-- R44: `STATUS` and the reserved addresses ignore a write. -/
theorem performAction_wr_ignored {a : Addr} (h : a = addressOf .status ∨ locate a = none) :
    performAction exec (.wr a v) s = .next s := by
  rcases h with rfl | h
  · simp only [performAction, hostWrite, locate_addressOf]
  · simp only [performAction, hostWrite, h]

variable {v}

/-- R42, R61: a write of a command's byte to `CMD` runs the command. -/
theorem performAction_wr_cmd {i : Instr} (h : decode v = .ok i) :
    performAction exec (.wr (addressOf .cmd) v) s = exec i s := by
  rw [← encode_of_decode v i h]
  exact performAction_command exec i s

/-- R62: a write of any other byte to `CMD` records IllegalCommand. -/
theorem performAction_wr_cmd_illegal (h : decode v = .error (.illegalCommand v)) :
    performAction exec (.wr (addressOf .cmd) v) s = .next (raise .illegalCommand s) := by
  simp only [performAction, hostWrite, locate_addressOf, startCommand, h]

end

/-- R61, R62: a byte outside 1..7 is no command's encoding, so the decoder rejects it by name. -/
theorem decode_of_not_opcode {v : Byte} (h : v.toNat = 0 ∨ 8 ≤ v.toNat) : decode v = .error (.illegalCommand v) := by
  cases hd : decode v with
  | error r => rw [decode_error v r hd]
  | ok i =>
    have hopcode : ¬ ((encode i).toNat = 0 ∨ 8 ≤ (encode i).toNat) := by cases i <;> decide
    rw [encode_of_decode v i hd] at hopcode
    exact absurd h hopcode

/-- Settles O8: each address by the location it names. -/
theorem hostWriteByAddress : Obligations.HostWriteByAddress := by
  intro s a v
  refine ⟨fun i h => ?_, ?_, ?_, ?_, ?_, fun k h => ?_, fun h => performAction_wr_ignored v s ?_,
    performAction_answers_next exec_answers_next _ s⟩
  · rw [← addressOf_of_locate a _ (locate_ident a i h), performAction_wr_ident]
  · rintro rfl; exact performAction_wr_fl v s
  · rintro rfl; exact performAction_wr_slen v s
  · rintro rfl i hd; exact performAction_wr_cmd s hd
  · rintro rfl hv; exact performAction_wr_cmd_illegal s (decode_of_not_opcode hv)
  · rw [← addressOf_of_locate a _ (locate_sf a k h), performAction_wr_sf]
  · exact h.imp_right (locate_reserved a)

/-! ### Reads after a write (R48(b)) -/

/-- R41: the addresses of the read/write registers. -/
abbrev ReadWrite (a : Addr) : Prop := a.toNat ≤ 0x11 ∨ (0x20 ≤ a.toNat ∧ a.toNat ≤ 0x35)

/-- R41: of the named locations all but `STATUS` and `CMD` are read/write. -/
theorem readWrite_addressOf (l : Location) : ReadWrite (addressOf l) ↔ l ≠ .status ∧ l ≠ .cmd := by
  cases l with
  | ident i => revert i; decide
  | sf k => revert k; decide
  | fl | slen | status | cmd => decide

/-- R44: no reserved address is read/write. -/
theorem not_readWrite_of_locate_none : ∀ {a : Addr}, locate a = none → ¬ ReadWrite a := by decide

/-- A byte stored at one read/write location and nowhere else is read at that location's address and nowhere else: the map gives no
location two addresses. -/
theorem readReg_of_stored_at {s t : State} {l : Location} {v : Byte} (hrw : l ≠ .status ∧ l ≠ .cmd)
    (hsame : readReg t (addressOf l) = v)
    (hother : ∀ l', l' ≠ l → readReg t (addressOf l') = readReg s (addressOf l')) (a' : Addr) :
    readReg t a' = if a' = addressOf l ∧ ReadWrite (addressOf l) then v else readReg s a' := by
  simp only [(readWrite_addressOf l).mpr hrw, and_true]
  split
  · next h => rw [h, hsame]
  · next h =>
    cases hl : locate a' with
    | none => rw [readReg_of_locate_none t hl, readReg_of_locate_none s hl]
    | some l' =>
      rw [← addressOf_of_locate a' l' hl] at h ⊢
      exact hother l' fun e => h (e ▸ rfl)

/-- A write anywhere but at `CMD`, said by what reads give after it. -/
theorem readReg_after_wr {a : Addr} {v : Byte} {s t : State} (ha : a ≠ addressOf .cmd)
    (h : performAction exec (.wr a v) s = .next t) (a' : Addr) :
    readReg t a' = if a' = a ∧ ReadWrite a then v else readReg s a' := by
  rcases hostWrite_cases h with ⟨i, hi, rfl⟩ | ⟨rfl, rfl⟩ | ⟨rfl, rfl⟩ | ⟨k, hk, rfl⟩ | ⟨hign, rfl⟩ | ⟨hcmd, -⟩ | ⟨hcmd, -⟩
  · rw [← addressOf_of_locate a _ hi]
    refine readReg_of_stored_at (by simp) (by simp) (fun l' hl' => ?_) a'
    cases l' with
    | ident j => simpa using Vector.getElem_set_ne _ _ fun e => hl' (congrArg _ (Fin.ext e.symm))
    | fl | slen | status | cmd | sf _ => simp
  · refine readReg_of_stored_at (l := .fl) (by simp) (by simp) (fun l' hl' => ?_) a'
    cases l' with
    | fl => exact absurd rfl hl'
    | ident _ | slen | status | cmd | sf _ => simp
  · refine readReg_of_stored_at (l := .slen) (by simp) (by simp) (fun l' hl' => ?_) a'
    cases l' with
    | slen => exact absurd rfl hl'
    | ident _ | fl | status | cmd | sf _ => simp
  · rw [← addressOf_of_locate a _ hk]
    refine readReg_of_stored_at (by simp) (by simp) (fun l' hl' => ?_) a'
    cases l' with
    | sf j => simpa using Vector.getElem_set_ne _ _ fun e => hl' (congrArg _ (Fin.ext e.symm))
    | ident _ | fl | slen | status | cmd => simp
  · have hro : ¬ ReadWrite a := by
      rcases hign with rfl | hnone
      · decide
      · exact not_readWrite_of_locate_none hnone
    rw [if_neg fun hw => hro hw.2]
  · exact absurd hcmd ha
  · exact absurd hcmd ha

/-- Settles O10: a host write always answers next, and what it leaves is said by `readReg_after_wr`. -/
theorem readAfterWrite : Obligations.ReadAfterWrite := by
  intro s a v ha
  obtain ⟨t, ht⟩ := performAction_answers_next exec_answers_next (.wr a v) s
  exact ⟨t, ht, readReg_after_wr ha ht⟩

/-! ### The host's side of the port (log 1, log 3) -/

/-- R34: a command touches nothing of the host's. -/
theorem exec_keeps_host {i : Instr} {s t : State} (h : exec i s = .next t) : SameHost s t := by
  rcases exec_cases h with ⟨_, rfl, -⟩ | ⟨-, rfl⟩ | ⟨-, -, -, -, rfl⟩ | ⟨-, rfl⟩ | ⟨-, -, rfl⟩ | ⟨-, rfl⟩ |
    ⟨_, -, ⟨-, rfl⟩ | ⟨-, -, rfl⟩⟩
  all_goals exact ⟨rfl, rfl⟩

/-- A write hands the host nothing. -/
theorem performAction_wr_keeps_host {a : Addr} {v : Byte} {s t : State} (h : performAction exec (.wr a v) s = .next t) :
    SameHost s t := by
  rcases hostWrite_cases h with ⟨_, -, rfl⟩ | ⟨-, rfl⟩ | ⟨-, rfl⟩ | ⟨_, -, rfl⟩ | ⟨-, rfl⟩ | ⟨-, i, -, hrun⟩ | ⟨-, -, rfl⟩
  · exact ⟨rfl, rfl⟩
  · exact ⟨rfl, rfl⟩
  · exact ⟨rfl, rfl⟩
  · exact ⟨rfl, rfl⟩
  · exact ⟨rfl, rfl⟩
  · exact exec_keeps_host hrun
  · exact ⟨rfl, rfl⟩

/-- No action changes what the host has yet to issue. -/
theorem performAction_script {x : HostAction} {s t : State} (h : performAction exec x s = .next t) :
    t.script = s.script := by
  cases x with
  | wr a v => exact (performAction_wr_keeps_host h).1
  | rd a => cases h; rfl
  | reset => cases h; rfl

/-- Settles O11: with `a ≠ b` each address gets the same byte in either order, and the host's side stays. -/
theorem registerWritesCommute : Obligations.RegisterWritesCommute := by
  intro s a b v w hab ha hb
  obtain ⟨t, ht⟩ := performAction_answers_next exec_answers_next (.wr a v) s
  obtain ⟨r, hr⟩ := performAction_answers_next exec_answers_next (.wr b w) t
  obtain ⟨u, hu⟩ := performAction_answers_next exec_answers_next (.wr b w) s
  obtain ⟨r', hr'⟩ := performAction_answers_next exec_answers_next (.wr a v) u
  have hread : ∀ x, readReg r' x = readReg r x := by
    intro x
    rw [readReg_after_wr ha hr', readReg_after_wr hb hu, readReg_after_wr hb hr, readReg_after_wr ha ht]
    by_cases hx : x = a
    · have hxb : x ≠ b := fun e => hab (hx.symm.trans e)
      simp only [hxb, false_and, if_false]
    · simp only [hx, false_and, if_false]
  have hhost : SameHost r' r := by
    obtain ⟨ht1, ht2⟩ := performAction_wr_keeps_host ht
    obtain ⟨hr1, hr2⟩ := performAction_wr_keeps_host hr
    obtain ⟨hu1, hu2⟩ := performAction_wr_keeps_host hu
    obtain ⟨hr1', hr2'⟩ := performAction_wr_keeps_host hr'
    exact ⟨by rw [hr1', hu1, hr1, ht1], by rw [hr2', hu2, hr2, ht2]⟩
  have hsame : r' = r := state_eq_of_readReg hread hhost
  exact ⟨t, u, r, ht, hr, hu, hsame ▸ hr'⟩

/-! ### The step over the script (R48(a), R147) -/

theorem step_of_script_cons {s : State} {x : HostAction} {rest : List HostAction} (h : s.script = x :: rest) :
    step s = performAction exec x { s with script := rest } := by
  simp only [step, respond, nextAction, h]

theorem step_of_script_nil {s : State} (h : s.script = []) : step s = .next s := by
  simp only [step, respond, nextAction, h]

/-- Settles O4: both cases of the script. -/
theorem stepPerformsTheNextHostAction : Obligations.StepPerformsTheNextHostAction :=
  ⟨fun _ _ _ => step_of_script_cons, fun _ => step_of_script_nil⟩

/-- Settles O5: the step is the write, and the write is the command. -/
theorem stepRunsTheDecodedCommand : Obligations.StepRunsTheDecodedCommand :=
  fun _ _ _ _ hscript hd _ => (step_of_script_cons hscript).trans (performAction_wr_cmd _ hd)

/-- Settles O12: the step is the action, by the action's kind; only a read hands the host a byte. -/
theorem stepTakesOneHostAction : Obligations.StepTakesOneHostAction := by
  intro s x rest hscript
  obtain ⟨t, ht⟩ := performAction_answers_next exec_answers_next x { s with script := rest }
  refine ⟨t, (step_of_script_cons hscript).trans ht, performAction_script ht, ?_⟩
  cases x with
  | wr a v =>
    obtain ⟨-, hreads⟩ := performAction_wr_keeps_host ht
    simpa using hreads
  | rd a => cases ht; rfl
  | reset => cases ht; exact (List.append_nil _).symm

/-! ### A run over the script (R48(a), R65) -/

/-- R34: a command does the same whatever the host has yet to issue. -/
theorem exec_withScript {i : Instr} {s t : State} (h : exec i s = .next t) (q : List HostAction) :
    exec i { s with script := q } = .next { t with script := q } := by
  cases i with
  | enc =>
    cases hc : codecEncode s.ident s.fl with
    | error e => cases (exec_enc_of_error hc).symm.trans h; exact exec_enc_of_error hc
    | ok cs => cases (exec_enc_of_ok hc).symm.trans h; exact exec_enc_of_ok hc
  | dec =>
    cases hc : codecDecode s.slen s.sf with
    | error e => cases (exec_dec_of_error hc).symm.trans h; exact exec_dec_of_error hc
    | ok r => cases (exec_dec_of_ok hc).symm.trans h; exact exec_dec_of_ok hc
  | trydec =>
    cases hc : codecDecode s.slen s.sf with
    | error e => cases (exec_trydec_of_error hc).symm.trans h; exact exec_trydec_of_error hc
    | ok r => cases (exec_trydec_of_ok hc).symm.trans h; exact exec_trydec_of_ok hc
  | pack =>
    cases hc : flagsInRange s.fl with
    | false => cases (exec_pack_of_not_inRange hc).symm.trans h; exact exec_pack_of_not_inRange hc
    | true => cases (exec_pack_of_inRange hc).symm.trans h; exact exec_pack_of_inRange hc
  | unpack => cases h; exact exec_unpack _
  | b64e => cases h; exact exec_b64e _
  | b64d =>
    cases hc : b64d s.slen s.sf with
    | error e => cases (exec_b64d_of_error hc).symm.trans h; exact exec_b64d_of_error hc
    | ok b => cases (exec_b64d_of_ok hc).symm.trans h; exact exec_b64d_of_ok hc

/-- An action does the same whatever the host has yet to issue. -/
theorem performAction_withScript {x : HostAction} {s t : State} (h : performAction exec x s = .next t)
    (q : List HostAction) : performAction exec x { s with script := q } = .next { t with script := q } := by
  cases x with
  | rd a => cases h; rfl
  | reset => cases h; rfl
  | wr a v =>
    rcases hostWrite_cases h with ⟨i, hi, rfl⟩ | ⟨rfl, rfl⟩ | ⟨rfl, rfl⟩ | ⟨k, hk, rfl⟩ | ⟨hign, rfl⟩ | ⟨rfl, i, hd, hrun⟩ |
      ⟨rfl, hd, rfl⟩
    · rw [← addressOf_of_locate a _ hi]; exact performAction_wr_ident v _ i
    · exact performAction_wr_fl v _
    · exact performAction_wr_slen v _
    · rw [← addressOf_of_locate a _ hk]; exact performAction_wr_sf v _ k
    · exact performAction_wr_ignored v _ hign
    · exact (performAction_wr_cmd _ hd).trans (exec_withScript hrun q)
    · exact performAction_wr_cmd_illegal _ hd

/-- As many steps as the host's next actions perform them, whatever comes after them in the script. -/
theorem run_script_append (xs : List HostAction) {rest : List HostAction} {s : State} (h : s.script = xs ++ rest) :
    Sys2Proof.core.run xs.length s = performAll exec xs { s with script := rest } := by
  induction xs generalizing s with
  | nil =>
    rw [List.nil_append] at h
    rw [← h]
    rfl
  | cons x xs ih =>
    obtain ⟨t, ht⟩ := performAction_answers_next exec_answers_next x { s with script := xs ++ rest }
    have hstep : step s = .next t := (step_of_script_cons h).trans ht
    rw [List.length_cons, run_succ _ hstep, ih (performAction_script ht),
      performAll_cons xs (performAction_withScript ht rest)]

/-- Settles O53, by induction on the list of actions. -/
theorem scriptRunPerformsItsActions : Obligations.ScriptRunPerformsItsActions :=
  fun xs _ _ h => run_script_append xs h

@[simp] theorem length_writesFrom (base : Nat) (l : List Nat) : (writesFrom base l).length = l.length := by
  induction l generalizing base with
  | nil => rfl
  | cons v vs ih => rw [writesFrom, List.length_cons, List.length_cons, ih]

/-- R66: sixteen bytes written from address `0x00` up are the whole of `ID`. -/
theorem performAll_ldid {bytes : List Nat} (hlen : bytes.length = 16) (s : State) :
    performAll exec (expandLine (.ldid bytes)) s =
      .next { s with ident := Vector.ofFn fun i : Fin 16 => BitVec.ofNat 8 (bytes.getD i.val 0) } := by
  rw [expandLine, performAll_writesFrom_ident exec bytes 0x00 s (by omega)]
  simp [hlen, scriptByte]

/-- Settles O49: the sixteen steps perform `LDID`'s sixteen writes. -/
theorem ldidLoadsTheIdentifier : Obligations.LdidLoadsTheIdentifier := by
  intro s bytes rest hlen hscript
  have hwrites : (expandLine (.ldid bytes)).length = 16 := (length_writesFrom 0x00 bytes).trans hlen
  have hrun := run_script_append _ hscript
  rw [hwrites] at hrun
  exact hrun.trans (performAll_ldid hlen _)

end Sys2Proof.Machine

/-!
The command encoding (R60 to R62, Part A of 30_encoding.md) and the expansions of the pseudo-instructions (R66): the decoder undoes the
encoder on the bytes 1 to 7 and rejects every other byte, and consecutive writes or reads are a map over the offsets from the base.
-/

namespace Sys2Proof.Machine

/-! ### The decoder and the encoder (R61, R62) -/

/-- R61: the opcode map selects a command's own row at its byte. -/
@[simp] theorem decode_encode (i : Instr) : decode (encode i) = .ok i := by cases i <;> rfl

/-- R61: each of the bytes 1 to 7 is some command's. -/
theorem exists_encode_eq {b : Byte} (h : 1 ≤ b.toNat ∧ b.toNat ≤ 7) : ∃ i, encode i = b := by
  have hcases : b.toNat = 1 ∨ b.toNat = 2 ∨ b.toNat = 3 ∨ b.toNat = 4 ∨ b.toNat = 5 ∨ b.toNat = 6 ∨ b.toNat = 7 := by
    omega
  rcases hcases with h | h | h | h | h | h | h
  · exact ⟨.enc, BitVec.eq_of_toNat_eq h.symm⟩
  · exact ⟨.dec, BitVec.eq_of_toNat_eq h.symm⟩
  · exact ⟨.trydec, BitVec.eq_of_toNat_eq h.symm⟩
  · exact ⟨.pack, BitVec.eq_of_toNat_eq h.symm⟩
  · exact ⟨.unpack, BitVec.eq_of_toNat_eq h.symm⟩
  · exact ⟨.b64e, BitVec.eq_of_toNat_eq h.symm⟩
  · exact ⟨.b64d, BitVec.eq_of_toNat_eq h.symm⟩

/-- Settles O1: the seven words are the encodings of the seven commands, and the four others are outside 1 to 7. -/
theorem opcodeWordsDecode : Obligations.OpcodeWordsDecode :=
  ⟨decode_encode .enc, decode_encode .dec, decode_encode .trydec, decode_encode .pack, decode_encode .unpack,
    decode_encode .b64e, decode_encode .b64d, decode_of_not_opcode (by decide), decode_of_not_opcode (by decide),
    decode_of_not_opcode (by decide), decode_of_not_opcode (by decide)⟩

/-- Settles O2: `decode_encode`, for every command is well formed. -/
theorem encodedCommandDecodesToItself : Obligations.EncodedCommandDecodesToItself := fun i _ => decode_encode i

/-- Settles O3: a byte from 1 to 7 is some command's encoding, and the decoder undoes the encoder. -/
theorem decoderAcceptsExactlySevenBytes : Obligations.DecoderAcceptsExactlySevenBytes := by
  refine fun b => ⟨fun h => ?_, decode_of_not_opcode⟩
  obtain ⟨i, rfl⟩ := exists_encode_eq h
  exact ⟨i, decode_encode i, rfl⟩

/-- R65, log 2: a table word placed as the host's next command is the write of that command's byte. -/
theorem withFetchWord_script (s : State) (i : Instr) :
    (s.withFetchWord 8 (encode i).toNat).script = .wr (addressOf .cmd) (encode i) :: s.script := by
  rw [State.withFetchWord, tableByte_encode]
  rfl

/-- Settles O6: the step performs the placed write, and the write runs the command. -/
theorem placedTableWordRunsNext : Obligations.PlacedTableWordRunsNext := by
  refine fun s i => ⟨?_, ?_⟩
  · rw [decodeTableWord, tableByte_encode, decode_encode]
  · exact (step_of_script_cons (withFetchWord_script s i)).trans (performAction_wr_cmd s (decode_encode i))

/-- Settles O7: the decoder rejects the byte, and IllegalCommand is the code 6 over a zero `OK` bit, `0x0C`. -/
theorem illegalCommandByteIsRecorded : Obligations.IllegalCommandByteIsRecorded :=
  fun s _ hv => performAction_wr_cmd_illegal s (decode_of_not_opcode hv)

/-! ### The pseudo-instructions (R66) -/

/-- Writes of consecutive bytes, by the offset from the base. -/
theorem writesFrom_eq_map (base : Nat) (l : List Nat) :
    writesFrom base l =
      (List.range l.length).map fun i => HostAction.wr (BitVec.ofNat 6 (base + i)) (BitVec.ofNat 8 (l.getD i 0)) := by
  induction l generalizing base with
  | nil => rfl
  | cons v vs ih =>
    have hoffset : ∀ i, base + 1 + i = base + (i + 1) := fun i => by omega
    rw [writesFrom, ih, List.length_cons, List.range_succ_eq_map]
    simp [scriptAddr, scriptByte, Function.comp_def, hoffset]

/-- Reads of consecutive addresses, by the offset from the base. -/
theorem readsFrom_eq_map (base n : Nat) :
    readsFrom base n = (List.range n).map fun i => HostAction.rd (BitVec.ofNat 6 (base + i)) := by
  induction n generalizing base with
  | zero => rfl
  | succ n ih =>
    have hoffset : ∀ i, base + 1 + i = base + (i + 1) := fun i => by omega
    rw [readsFrom, ih, List.range_succ_eq_map]
    simp [scriptAddr, Function.comp_def, hoffset]

/-- R66: `LDSF` writes the characters that fit `SF`, each as the string has it. -/
theorem writesFrom_take_eq_map (base n : Nat) (l : List Nat) :
    writesFrom base (l.take n) = (List.range (min l.length n)).map fun k =>
      HostAction.wr (BitVec.ofNat 6 (base + k)) (BitVec.ofNat 8 (l.getD k 0)) := by
  rw [writesFrom_eq_map, List.length_take, Nat.min_comm]
  refine List.map_congr_left fun k hk => ?_
  have hkn : k < n := by
    have := List.mem_range.mp hk
    omega
  simp [List.getD, List.getElem?_take_of_lt hkn]

/-- Settles O48: each line by its list of consecutive accesses. -/
theorem pseudoInstructionExpansions : Obligations.PseudoInstructionExpansions := by
  refine ⟨fun bytes hlen => ?_, fun _ _ => rfl, fun chars _ => ?_, ?_, rfl, ?_, rfl⟩
  · rw [expandLine, writesFrom_eq_map, hlen]
    simp only [Nat.zero_add]
  · rw [expandLine, writesFrom_take_eq_map]
    rfl
  · rw [expandLine, readsFrom_eq_map]
    simp only [Nat.zero_add]
  · rw [expandLine, readsFrom_eq_map]
    rfl

end Sys2Proof.Machine

/-!
The data encodings (R67 to R70, Part B of 30_encoding.md). Counted from the front, the 128 bits of an identifier lie in its sixteen
bytes and in the 22 sextets of its text in the same order: bit `p` is bit `7 - p % 8` of byte `p / 8` and bit `5 - p % 6` of sextet
`p / 6`. The groups of three bytes and four characters are read off from that, and so is where the flags land.
-/

namespace Sys2Proof.Machine

/-! ### The alphabet (R67) -/

/-- R67: `A` to `Z`. -/
theorem toNat_alpha_upper {v : Sextet} (h : v.toNat ≤ 25) : (alpha v).toNat = 0x41 + v.toNat := by
  rw [alpha, if_pos h]
  simp
  omega

/-- R67: `a` to `z`. -/
theorem toNat_alpha_lower {v : Sextet} (h : 26 ≤ v.toNat ∧ v.toNat ≤ 51) : (alpha v).toNat = 0x61 + (v.toNat - 26) := by
  rw [alpha, if_neg (by omega), if_pos h.2]
  simp
  omega

/-- R67: `0` to `9`. -/
theorem toNat_alpha_digit {v : Sextet} (h : 52 ≤ v.toNat ∧ v.toNat ≤ 61) : (alpha v).toNat = 0x30 + (v.toNat - 52) := by
  rw [alpha, if_neg (by omega), if_neg (by omega), if_pos h.2]
  simp
  omega

/-- R67, D27: all eight bits of a byte are compared, so a byte with the top bit set is no character. -/
theorem inAlpha_of_high_bit {x : Byte} (h : 0x80 ≤ x.toNat) : inAlpha x = false := by
  simp [inAlpha, BitVec.le_def, ← BitVec.toNat_inj]
  omega

/-- Settles O25: the formula by its ranges, the inverse by the table's two laws, the bytes outside one by one. -/
theorem alphabetTable : Obligations.AlphabetTable := by
  refine ⟨fun v => ⟨toNat_alpha_upper, toNat_alpha_lower, toNat_alpha_digit, ?_, ?_, inAlpha_alpha v, alphaInv_alpha v⟩,
    alpha_alphaInv, ?_⟩
  · rintro rfl; rfl
  · rintro rfl; rfl
  · rintro x (rfl | rfl | rfl | rfl | rfl | rfl | h)
    exacts [rfl, rfl, rfl, rfl, rfl, rfl, inAlpha_of_high_bit h]

/-! ### The text and the sextets, character by character -/

theorem getElem_b64e (b : Identifier) (k : Nat) (h : k < 22) : (b64e b)[k] = alpha (sextetsOf b)[k] := by
  simp [b64e, charsOf]

theorem getElem_sextetsOfChars (cs : Characters) (k : Nat) (h : k < 22) : (sextetsOfChars cs)[k] = alphaInv cs[k] := by
  simp [sextetsOfChars]

/-! ### The same bit in a byte and in a sextet (R68, R95) -/

/-- R68: a bit of a sextet is the identifier's bit at the same place from the front. -/
theorem getLsbD_sextetsOf_of_pos {i u k t : Nat} (b : Identifier) {hk : k < 22} (hi : i < 16)
    (hpos : u < 8 ∧ t < 6 ∧ 8 * i + (7 - u) = 6 * k + (5 - t)) : (sextetsOf b)[k].getLsbD t = b[i].getLsbD u := by
  have hbyte : 15 - (126 - 6 * k + t - 4) / 8 = i := by omega
  have hbit : (126 - 6 * k + t - 4) % 8 = u := by omega
  rw [getLsbD_sextetsOf b k t hk (by omega), if_neg (by omega)]
  simp only [hbyte, hbit]

/-- R95: a bit of a byte is the sextets' bit at the same place from the front. -/
theorem getLsbD_bytesOf_of_pos {i u k t : Nat} (s : Vector Sextet 22) {hi : i < 16} (hk : k < 22)
    (hpos : u < 8 ∧ t < 6 ∧ 8 * i + (7 - u) = 6 * k + (5 - t)) : (bytesOf s)[i].getLsbD u = s[k].getLsbD t := by
  have hsextet : 21 - (124 - 8 * i + u) / 6 = k := by omega
  have hbit : (124 - 8 * i + u) % 6 = t := by omega
  rw [getLsbD_bytesOf s i u hi (by omega)]
  simp only [hsextet, hbit]

/-! ### Three bytes are four characters (R68)

Byte 15 begins a sixth group, of which there is no more than its first byte.
-/

/-- A number is a concatenation when its low bits are the one part's and the bits above them the other's. -/
theorem eq_append_of_getLsbD {n m : Nat} {x : BitVec (n + m)} {y : BitVec n} {z : BitVec m}
    (hlow : ∀ t < m, x.getLsbD t = z.getLsbD t) (hhigh : ∀ t < n, x.getLsbD (m + t) = y.getLsbD t) : x = y ++ z := by
  refine BitVec.eq_of_getLsbD_eq fun t ht => ?_
  by_cases h : t < m
  · rw [getLsbD_append_low _ _ h, hlow t h]
  · have hsum : m + (t - m) = t := by omega
    rw [getLsbD_append_high _ _ (by omega), ← hhigh (t - m) (by omega), hsum]

section
variable (b : Identifier) (j : Nat)

/-- R68: `x[7:2]`. -/
theorem sextetsOf_group_first (h : j < 6) : (sextetsOf b)[4 * j] = b[3 * j].extractLsb 7 2 := by
  refine BitVec.eq_of_getLsbD_eq fun t ht => ?_
  rw [getLsbD_sextetsOf_of_pos (i := 3 * j) (u := 2 + t) b (by omega) (by omega)]
  simp [ht]

/-- R68: `x[1:0] ∥ y[7:4]`. -/
theorem sextetsOf_group_second (h : j < 5) :
    (sextetsOf b)[4 * j + 1] = b[3 * j].extractLsb 1 0 ++ b[3 * j + 1].extractLsb 7 4 := by
  refine eq_append_of_getLsbD (n := 2) (m := 4) (fun t ht => ?_) (fun t ht => ?_)
  · rw [getLsbD_sextetsOf_of_pos (i := 3 * j + 1) (u := 4 + t) b (by omega) (by omega)]
    simp [ht]
  · rw [getLsbD_sextetsOf_of_pos (i := 3 * j) (u := t) b (by omega) (by omega)]
    simp [ht]

/-- R68: `y[3:0] ∥ z[7:6]`. -/
theorem sextetsOf_group_third (h : j < 5) :
    (sextetsOf b)[4 * j + 2] = b[3 * j + 1].extractLsb 3 0 ++ b[3 * j + 2].extractLsb 7 6 := by
  refine eq_append_of_getLsbD (n := 4) (m := 2) (fun t ht => ?_) (fun t ht => ?_)
  · rw [getLsbD_sextetsOf_of_pos (i := 3 * j + 2) (u := 6 + t) b (by omega) (by omega)]
    simp [ht]
  · rw [getLsbD_sextetsOf_of_pos (i := 3 * j + 1) (u := t) b (by omega) (by omega)]
    simp [ht]

/-- R68: `z[5:0]`. -/
theorem sextetsOf_group_fourth (h : j < 5) : (sextetsOf b)[4 * j + 3] = b[3 * j + 2].extractLsb 5 0 := by
  refine BitVec.eq_of_getLsbD_eq fun t ht => ?_
  rw [getLsbD_sextetsOf_of_pos (i := 3 * j + 2) (u := t) b (by omega) (by omega)]
  simp [ht]

/-- R68: the last sextet is two bits of the last byte over the zero fill. -/
theorem sextetsOf_last : (sextetsOf b)[21] = b[15].extractLsb 1 0 ++ 0b0000#4 := by
  refine eq_append_of_getLsbD (n := 2) (m := 4) (fun t ht => ?_) (fun t ht => ?_)
  · rw [getLsbD_sextetsOf b 21 t (by omega) (by omega), if_pos (by omega), BitVec.getLsbD_zero]
  · rw [getLsbD_sextetsOf_of_pos (i := 15) (u := t) b (by omega) (by omega)]
    simp [ht]

end

/-- R68: the character of the slice of the 132-bit number. -/
theorem getElem_b64e_slice (b : Identifier) (k : Nat) (h : k < 22) :
    (b64e b)[k] = alpha ((catBytes b ++ 0b0000#4).extractLsb' (126 - 6 * k) 6) := by
  rw [getElem_b64e b k h, sextetsOf, Vector.getElem_ofFn]

/-- Settles O26: the slices by definition, the groups sextet by sextet. -/
theorem sextetLayout : Obligations.SextetLayout := by
  refine fun b => ⟨getElem_b64e_slice b, fun j hj => ⟨?_, ?_, ?_, ?_⟩, ?_, ?_⟩
  · rw [getElem_b64e b (4 * j) (by omega), sextetsOf_group_first b j (by omega)]
  · rw [getElem_b64e b (4 * j + 1) (by omega), sextetsOf_group_second b j hj]
  · rw [getElem_b64e b (4 * j + 2) (by omega), sextetsOf_group_third b j hj]
  · rw [getElem_b64e b (4 * j + 3) (by omega), sextetsOf_group_fourth b j hj]
  · rw [getElem_b64e b 20 (by omega)]
    exact congrArg alpha (sextetsOf_group_first b 5 (by omega))
  · rw [getElem_b64e b 21 (by omega), sextetsOf_last]

/-! ### Four characters are three bytes (R95) -/

section
variable (s : Vector Sextet 22) (j : Nat)

/-- R95: the first byte of a group, and byte 15, whose sextets' low four bits reach no byte (R69, log 6). -/
theorem bytesOf_group_first (h : j < 6) : (bytesOf s)[3 * j] = s[4 * j] ++ s[4 * j + 1].extractLsb 5 4 := by
  refine eq_append_of_getLsbD (n := 6) (m := 2) (fun u hu => ?_) (fun u hu => ?_)
  · rw [getLsbD_bytesOf_of_pos (k := 4 * j + 1) (t := 4 + u) s (by omega) (by omega)]
    simp [hu]
  · rw [getLsbD_bytesOf_of_pos (k := 4 * j) (t := u) s (by omega) (by omega)]

/-- R95: the second byte of a group. -/
theorem bytesOf_group_second (h : j < 5) :
    (bytesOf s)[3 * j + 1] = s[4 * j + 1].extractLsb 3 0 ++ s[4 * j + 2].extractLsb 5 2 := by
  refine eq_append_of_getLsbD (n := 4) (m := 4) (fun u hu => ?_) (fun u hu => ?_)
  · rw [getLsbD_bytesOf_of_pos (k := 4 * j + 2) (t := 2 + u) s (by omega) (by omega)]
    simp [hu]
  · rw [getLsbD_bytesOf_of_pos (k := 4 * j + 1) (t := u) s (by omega) (by omega)]
    simp [hu]

/-- R95: the third byte of a group. -/
theorem bytesOf_group_third (h : j < 5) : (bytesOf s)[3 * j + 2] = s[4 * j + 2].extractLsb 1 0 ++ s[4 * j + 3] := by
  refine eq_append_of_getLsbD (n := 2) (m := 6) (fun u hu => ?_) (fun u hu => ?_)
  · rw [getLsbD_bytesOf_of_pos (k := 4 * j + 3) (t := u) s (by omega) (by omega)]
  · rw [getLsbD_bytesOf_of_pos (k := 4 * j + 2) (t := u) s (by omega) (by omega)]
    simp [hu]

end

/-- R95: with both checks passed `b64d` answers the bytes of the characters' sextets. -/
theorem b64d_of_checks {cs : Characters} (h : charsOk cs = true) :
    b64d 22#8 cs = .ok (bytesOf (sextetsOfChars cs)) := by
  rcases b64d_cases 22#8 cs with ⟨hn, -⟩ | ⟨-, hbad, -⟩ | ⟨-, -, e⟩
  · exact absurd rfl hn
  · rw [h] at hbad; cases hbad
  · exact e

/-- Settles O27: both checks pass, and each byte of the answer is read from its group. -/
theorem decodedByteLayout : Obligations.DecodedByteLayout := by
  refine fun cs hcs => ⟨_, b64d_of_checks ((charsOk_iff cs).mpr hcs), fun j hj => ⟨?_, ?_, ?_⟩, ?_⟩
  · rw [bytesOf_group_first _ j (by omega), getElem_sextetsOfChars, getElem_sextetsOfChars]
  · rw [bytesOf_group_second _ j hj, getElem_sextetsOfChars, getElem_sextetsOfChars]
  · rw [bytesOf_group_third _ j hj, getElem_sextetsOfChars, getElem_sextetsOfChars]
  · rw [← getElem_sextetsOfChars cs 20, ← getElem_sextetsOfChars cs 21]
    exact bytesOf_group_first _ 5 (by omega)

/-! ### Where the flags land in the text (R68, R70) -/

/-- R21, R70: new markers leave every payload bit, the bits at the marker positions aside. -/
theorem getLsbD_withMarkers_payload (b : Identifier) (lo : BitVec 4) (hi : BitVec 2) {i u : Nat} (h : i < 16)
    (h7 : i = 7 → u < 4) (h8 : i = 8 → u < 6) : (withMarkers b lo hi)[i].getLsbD u = b[i].getLsbD u := by
  by_cases e7 : i = 7
  · subst e7
    rw [withMarkers_seven, getLsbD_append_low _ _ (h7 rfl)]
    simp [h7 rfl]
  by_cases e8 : i = 8
  · subst e8
    rw [withMarkers_eight, getLsbD_append_low _ _ (h8 rfl)]
    simp [h8 rfl]
  rw [withMarkers_other b lo hi i h e7 e8]

/-- R68: counted from the front the markers are bits 56 to 59 and 64 to 65, and sextets 9 and 10 are bits 54 to 65. -/
theorem sextetsOf_withMarkers_other (b : Identifier) (lo : BitVec 4) (hi : BitVec 2) {k : Nat} (h : k < 22)
    (h9 : k ≠ 9) (h10 : k ≠ 10) : (sextetsOf (withMarkers b lo hi))[k] = (sextetsOf b)[k] := by
  refine BitVec.eq_of_getLsbD_eq fun t ht => ?_
  rw [getLsbD_sextetsOf _ k t h ht, getLsbD_sextetsOf _ k t h ht]
  split
  · rfl
  · exact getLsbD_withMarkers_payload b lo hi _ (by omega) (by omega)

/-- R68: the low four bits of sextet 9 are the version marker. -/
theorem sextetsOf_nine_low (b : Identifier) : (sextetsOf b)[9].extractLsb 3 0 = b[7].extractLsb 7 4 := by
  have hlow : ∀ (x : BitVec 2) (y : BitVec 4), (x ++ y : Sextet).extractLsb 3 0 = y := by decide
  have hgroup : (sextetsOf b)[9] = b[6].extractLsb 1 0 ++ b[7].extractLsb 7 4 := sextetsOf_group_second b 2 (by omega)
  rw [hgroup]
  exact hlow _ _

/-- R68: the low two bits of sextet 10 are the variant marker. -/
theorem sextetsOf_ten_low (b : Identifier) : (sextetsOf b)[10].extractLsb 1 0 = b[8].extractLsb 7 6 := by
  have hlow : ∀ (x : BitVec 4) (y : BitVec 2), (x ++ y : Sextet).extractLsb 1 0 = y := by decide
  have hgroup : (sextetsOf b)[10] = b[7].extractLsb 3 0 ++ b[8].extractLsb 7 6 := sextetsOf_group_third b 2 (by omega)
  rw [hgroup]
  exact hlow _ _

/-- Settles O28: the flags are written over the markers, which characters 9 and 10 alone hold. -/
theorem flagsReachCharactersNineAndTen : Obligations.FlagsReachCharactersNineAndTen := by
  refine fun b f g => ⟨fun k hk h9 h10 => ?_, ?_, ?_⟩
  · rw [getElem_b64e _ k hk, getElem_b64e _ k hk, pack, pack, sextetsOf_withMarkers_other b _ _ hk h9 h10,
      sextetsOf_withMarkers_other b _ _ hk h9 h10]
  · rw [getElem_b64e _ 9 (by omega), alphaInv_alpha, sextetsOf_nine_low]
    exact withMarkers_high_nibble _ _ _
  · rw [getElem_b64e _ 10 (by omega), alphaInv_alpha, sextetsOf_ten_low]
    exact withMarkers_high_two _ _ _

/-! ### The round trip under any table (R67, D11) -/

/-- Sextets taken through a table of characters and back are the sextets. -/
theorem ofFn_inverse_table {table : Sextet → Byte} {inverse : Byte → Sextet} (h : ∀ v, inverse (table v) = v)
    (s : Vector Sextet 22) :
    (Vector.ofFn fun k : Fin 22 => inverse ((Vector.ofFn fun j : Fin 22 => table s[j])[k])) = s := by
  ext k hk : 1
  simp [h]

/-- Settles O29: the table drops out, and the layout loses nothing. -/
theorem base64LawForAnyTable : Obligations.Base64LawForAnyTable := by
  intro table inverse h b
  rw [ofFn_inverse_table h, bytesOf_sextetsOf]

/-! ### The shape of an encoding (R69, R125, R126) -/

/-- R67, R81: every character of a text is in the alphabet. -/
theorem inAlpha_b64e (b : Identifier) (k : Fin 22) : inAlpha (b64e b)[k] = true :=
  (charsOk_iff _).mp (charsOk_charsOf _) k

/-- R69: the characters of the four sextets with a zero fill: `A`, `Q`, `g`, `w`. -/
theorem alpha_zeroFill : ∀ x : BitVec 2, alpha (x ++ 0b0000#4) = 0x41#8 ∨ alpha (x ++ 0b0000#4) = 0x51#8 ∨
    alpha (x ++ 0b0000#4) = 0x67#8 ∨ alpha (x ++ 0b0000#4) = 0x77#8 := by decide

/-- R69: the last character of a text. -/
theorem b64e_last (b : Identifier) : (b64e b)[21] = 0x41#8 ∨ (b64e b)[21] = 0x51#8 ∨ (b64e b)[21] = 0x67#8 ∨
    (b64e b)[21] = 0x77#8 := by
  rw [getElem_b64e b 21 (by omega), sextetsOf_last]
  exact alpha_zeroFill _

/-- R82: what `encode` answers is the text of the packed bytes. -/
theorem eq_b64e_of_codecEncode_ok {g : Identifier} {fl : Byte} {cs : Characters} (h : codecEncode g fl = .ok cs) :
    cs = b64e (pack g (flagsValue fl)) := by
  rcases codecEncode_cases g fl with ⟨-, e⟩ | ⟨-, -, e⟩ | ⟨-, -, -, e⟩ <;> rw [e] at h
  · cases h
  · cases h
  · exact (Except.ok.inj h).symm

/-- R85: a successful `ENC` writes the length of its text. -/
theorem exec_enc_slen (s : State) : ∃ t, exec .enc s = .next t ∧ (t.status = 0x01#8 → t.slen = 22#8) := by
  cases h : codecEncode s.ident s.fl with
  | error e => exact ⟨_, exec_enc_of_error h, fun hok => absurd hok (errorStatus_ne_ok e)⟩
  | ok cs => exact ⟨_, exec_enc_of_ok h, fun _ => rfl⟩

/-- Settles O36: an encoding is a text, and `ENC` and `B64E` write its length. -/
theorem encodingShape : Obligations.EncodingShape := by
  refine ⟨fun g fl cs h => ?_, fun b => ⟨inAlpha_b64e b, b64e_last b⟩, exec_enc_slen, fun s => ⟨_, exec_b64e s, rfl⟩⟩
  rw [eq_b64e_of_codecEncode_ok h]
  exact ⟨inAlpha_b64e _, b64e_last _⟩

end Sys2Proof.Machine

/-!
The two codecs under the composed commands, as inverses. `pack` and `unpack` are a bijection of canonical identifier and flags with
sixteen bytes (R135). A text is sixteen bytes with four spare bits (R69): the decoder gives the bytes back whatever they are, and the
encoder is the case of zero spare bits (R133).
-/

namespace Sys2Proof.Machine

/-! ### The range check, and a flags value as a byte (R24) -/

theorem flagsInRange_eq_false_iff (fl : Byte) : flagsInRange fl = false ↔ fl.extractLsb 7 6 ≠ 0b00#2 := by
  rw [← Bool.not_eq_true, flagsInRange_iff]

theorem flagsInRange_eq_false_iff_le_toNat (fl : Byte) : flagsInRange fl = false ↔ 64 ≤ fl.toNat := by
  rw [← Bool.not_eq_true, flagsInRange_iff_toNat_le]
  omega

theorem flagsInRange_setWidth (f : FlagsValue) : flagsInRange (f.setWidth 8) = true := by revert f; decide

theorem flagsValue_setWidth (f : FlagsValue) : flagsValue (f.setWidth 8) = f := by revert f; decide

/-- A byte in range is the byte of its flags value, so a decoder writes back the byte an encoder read. -/
theorem flagsByte_flagsValue {fl : Byte} (h : flagsInRange fl = true) : flagsByte (flagsValue fl) = fl := by
  rw [flagsByte, ← (flagsInRange_iff fl).mp h]
  exact two_six_append fl

/-- R83: the flags value's low nibble and high pair are `FL[3:0]` and `FL[5:4]`. -/
theorem flagsValue_parts (fl : Byte) :
    (flagsValue fl).extractLsb 3 0 = fl.extractLsb 3 0 ∧ (flagsValue fl).extractLsb 5 4 = fl.extractLsb 5 4 := by
  revert fl; decide

/-! ### `pack` and `unpack` (R80, R96) -/

/-- R70: the canonical markers are the flags value 36. -/
theorem normalizeMarkers_eq_pack (b : Identifier) : normalizeMarkers b = pack b 36#6 := rfl

theorem pack_pack (b : Identifier) (f g : FlagsValue) : pack (pack b f) g = pack b g := withMarkers_withMarkers _ _ _ _ _

@[simp] theorem normalizeMarkers_pack (b : Identifier) (f : FlagsValue) : normalizeMarkers (pack b f) = normalizeMarkers b :=
  pack_pack b f 36#6

@[simp] theorem payloadZero_pack (b : Identifier) (f : FlagsValue) : payloadZero (pack b f) = payloadZero b :=
  payloadZero_withMarkers _ _ _

/-- R23: normalizing and then writing an identifier's own markers back restores it. -/
theorem pack_normalizeMarkers_markerFlags (b : Identifier) : pack (normalizeMarkers b) (markerFlags b) = b :=
  (pack_pack b 36#6 _).trans (pack_markerFlags b)

theorem canonical_iff (b : Identifier) :
    canonical b = true ↔ b[7].extractLsb 7 4 = 0b0100#4 ∧ b[8].extractLsb 7 6 = 0b10#2 := by
  simp [canonical]

theorem canonical_normalizeMarkers (b : Identifier) : canonical (normalizeMarkers b) = true :=
  (canonical_iff _).mpr ⟨withMarkers_high_nibble _ _ _, withMarkers_high_two _ _ _⟩

/-- R23: `normalize` changes no canonical identifier. -/
theorem normalizeMarkers_of_canonical {b : Identifier} (h : canonical b = true) : normalizeMarkers b = b := by
  obtain ⟨hversion, hvariant⟩ := (canonical_iff b).mp h
  have hflags : markerFlags b = 36#6 := by
    rw [markerFlags, hversion, hvariant]
    rfl
  rw [normalizeMarkers_eq_pack, ← hflags, pack_markerFlags]

theorem unpack_pack (b : Identifier) (f : FlagsValue) : unpack (pack b f) = (normalizeMarkers b, f) := by
  rw [unpack, normalizeMarkers_pack, markerFlags_pack]

/-- Settles O32: `unpack` reads back what `pack` wrote, and a pair that packs to `b` is what `unpack` reads from `b`. -/
theorem flagsCodecIsABijection : Obligations.FlagsCodecIsABijection := by
  refine ⟨unpack_pack, pack_normalizeMarkers_markerFlags, fun b => ⟨unpack b, ⟨?_, ?_⟩, ?_⟩⟩
  · exact canonical_normalizeMarkers b
  · exact pack_normalizeMarkers_markerFlags b
  · rintro ⟨g, f⟩ ⟨hcanonical, rfl⟩
    rw [unpack_pack, normalizeMarkers_of_canonical hcanonical]

/-- R22: the two reserved identifiers are two of those with a zero payload. -/
theorem ne_reserved_of_payload {b : Identifier} (h : payloadZero b = false) : b ≠ allZero ∧ b ≠ emptySentinel := by
  constructor
  · rintro rfl; exact absurd h (by decide)
  · rintro rfl; exact absurd h (by decide)

/-- R70: over AllZero the flags tell the identifiers apart. -/
theorem pack_allZero_inj (m n : FlagsValue) : pack allZero m = pack allZero n ↔ m = n := by
  refine ⟨fun h => ?_, congrArg _⟩
  rw [← markerFlags_pack allZero m, h, markerFlags_pack]

/-- R22, R70: AllZero and EmptySentinel are the flags 0 and 36 over AllZero. -/
theorem pack_allZero_reserved_iff (m : FlagsValue) :
    (pack allZero m = allZero ↔ m = 0#6) ∧ (pack allZero m = emptySentinel ↔ m = 36#6) := by
  constructor
  · rw [← pack_allZero_inj m 0#6, pack_allZero_zero]
  · rw [← pack_allZero_inj m 36#6, ← normalizeMarkers_eq_pack, normalizeMarkers_allZero]

/-! ### The base64 units as inverses (R133) -/

/-- The 22 sextets of sixteen bytes with `x` for the spare bits, which the encoder fills with zeros and the decoder drops (R68, R69). -/
def sextetsWithSpare (b : Identifier) (x : BitVec 4) : Vector Sextet 22 :=
  Vector.ofFn fun k => (catBytes b ++ x).extractLsb' (126 - 6 * k.val) 6

theorem catSextets_withSpare (b : Identifier) (x : BitVec 4) : catSextets (sextetsWithSpare b x) = catBytes b ++ x := by
  apply eq_of_sextets
  intro k
  rw [sextet_of_catSextets]
  simp [sextetsWithSpare]

/-- R69: the spare bits reach no byte. -/
theorem bytesOf_withSpare (b : Identifier) (x : BitVec 4) : bytesOf (sextetsWithSpare b x) = b := by
  ext i hi : 1
  have h := byte_of_catBytes b ⟨i, hi⟩
  simpa [bytesOf, catSextets_withSpare, spare_dropped] using h

/-- R68: the spare bits are the low four bits of the last sextet. -/
theorem sextetsWithSpare_last (b : Identifier) (x : BitVec 4) : (sextetsWithSpare b x)[21].extractLsb 3 0 = x := by
  refine BitVec.eq_of_getLsbD_eq fun t ht => ?_
  have hlow : t < 6 := by omega
  rw [← getLsbD_append_low (catBytes b) x ht]
  simp [sextetsWithSpare, ht, hlow]

/-- R68: no other sextet holds a spare bit. -/
theorem sextetsWithSpare_other (b : Identifier) (x y : BitVec 4) {k : Nat} (h : k < 21) :
    (sextetsWithSpare b x)[k] = (sextetsWithSpare b y)[k] := by
  refine BitVec.eq_of_getLsbD_eq fun t ht => ?_
  simp only [sextetsWithSpare, Vector.getElem_ofFn, BitVec.getLsbD_extractLsb', ht, decide_true, Bool.true_and]
  rw [getLsbD_append_high _ _ (by omega), getLsbD_append_high _ _ (by omega)]

/-- Any 22 sextets are those of the bytes they decode to, with their own spare bits. -/
theorem sextetsWithSpare_bytesOf (s : Vector Sextet 22) : sextetsWithSpare (bytesOf s) (s[21].extractLsb 3 0) = s := by
  have hlast : s[21] = (catSextets s).extractLsb' 0 6 := (sextet_of_catSextets s 21).symm
  have hnumber : catBytes (bytesOf s) ++ s[21].extractLsb 3 0 = catSextets s := by
    rw [catBytes_bytesOf, hlast]
    symm
    refine eq_append_of_getLsbD (n := 128) (m := 4) (fun t ht => ?_) (fun t ht => ?_)
    · have : t < 6 := by omega
      simp [ht, this]
    · simp [ht]
  ext k hk : 1
  rw [sextetsWithSpare, Vector.getElem_ofFn, hnumber]
  exact sextet_of_catSextets s ⟨k, hk⟩

/-- R67: characters of the alphabet are the characters of their sextets. -/
theorem charsOf_sextetsOfChars {cs : Characters} (h : charsOk cs = true) : charsOf (sextetsOfChars cs) = cs := by
  ext k hk : 1
  simpa [charsOf, sextetsOfChars] using alpha_alphaInv _ ((charsOk_iff cs).mp h ⟨k, hk⟩)

/-- The text of `b` with `x` for the spare bits. -/
def textWithSpare (b : Identifier) (x : BitVec 4) : Characters := charsOf (sextetsWithSpare b x)

theorem b64e_eq_textWithSpare (b : Identifier) : b64e b = textWithSpare b 0b0000#4 := rfl

theorem getElem_textWithSpare (b : Identifier) (x : BitVec 4) (k : Nat) (h : k < 22) :
    (textWithSpare b x)[k] = alpha (sextetsWithSpare b x)[k] := by simp [textWithSpare, charsOf]

theorem b64d_textWithSpare (b : Identifier) (x : BitVec 4) : b64d 22#8 (textWithSpare b x) = .ok b := by
  rw [textWithSpare, b64d_of_checks (charsOk_charsOf _), sextetsOfChars_charsOf, bytesOf_withSpare]

theorem spare_textWithSpare (b : Identifier) (x : BitVec 4) : (alphaInv (textWithSpare b x)[21]).extractLsb 3 0 = x := by
  rw [getElem_textWithSpare b x 21 (by omega), alphaInv_alpha, sextetsWithSpare_last]

/-- The strings that decode to `b` are its texts, one for each value of the spare bits. -/
theorem eq_textWithSpare_of_b64d {cs : Characters} {b : Identifier} (h : b64d 22#8 cs = .ok b) :
    cs = textWithSpare b ((alphaInv cs[21]).extractLsb 3 0) := by
  obtain ⟨-, hchars, rfl⟩ := b64d_ok h
  rw [textWithSpare, ← getElem_sextetsOfChars cs 21 (by omega), sextetsWithSpare_bytesOf, charsOf_sextetsOfChars hchars]

/-- R81, R95: the decoder undoes the encoder. -/
theorem b64d_b64e (b : Identifier) : b64d 22#8 (b64e b) = .ok b := b64d_textWithSpare b _

theorem b64e_injective {b b' : Identifier} (h : b64e b = b64e b') : b = b' := by
  have hb := b64d_b64e b
  rw [h, b64d_b64e] at hb
  exact (Except.ok.inj hb).symm

/-- Two texts of the same bytes differ in the last character when their spare bits differ, and nowhere else. -/
theorem textWithSpare_agree (b : Identifier) (x y : BitVec 4) :
    (∀ (k : Nat) (_ : k < 21), (textWithSpare b x)[k] = (textWithSpare b y)[k]) ∧
      ((textWithSpare b x)[21] = (textWithSpare b y)[21] ↔ x = y) := by
  refine ⟨fun k hk => ?_, fun h => ?_, fun h => by rw [h]⟩
  · rw [getElem_textWithSpare b x k (by omega), getElem_textWithSpare b y k (by omega), sextetsWithSpare_other b x y hk]
  · rw [← spare_textWithSpare b x, h, spare_textWithSpare]

/-- Settles O30: every string that decodes to `b` is a text of `b` with some spare bits, and the encoder's are zero. -/
theorem base64UnitsInverseOneWay : Obligations.Base64UnitsInverseOneWay := by
  refine ⟨b64d_b64e, fun _ _ => b64e_injective, fun cs b h => ?_, fun b x => ?_⟩
  · obtain ⟨hother, hlast⟩ := textWithSpare_agree b 0b0000#4 ((alphaInv cs[21]).extractLsb 3 0)
    rw [← eq_textWithSpare_of_b64d h, ← b64e_eq_textWithSpare] at hother hlast
    exact ⟨hother, (not_congr hlast).trans ne_comm⟩
  · refine ⟨textWithSpare b x, ⟨b64d_textWithSpare b x, spare_textWithSpare b x⟩, ?_⟩
    rintro cs ⟨h, rfl⟩
    exact eq_textWithSpare_of_b64d h

end Sys2Proof.Machine

/-!
What `encode` and `decode` answer, and the round trip of R123: as functions, in registers, and through the FlagsAdapter (R118). A zero
payload has none (R124).
-/

namespace Sys2Proof.Machine

/-! ### What `encode` and `decode` answer (R82, R97) -/

theorem codecEncode_of_not_inRange {b : Identifier} {fl : Byte} (h : flagsInRange fl = false) :
    codecEncode b fl = .error .range := if_pos h

theorem codecEncode_of_accepted {b : Identifier} {fl : Byte} (hfl : flagsInRange fl = true) (hz : b ≠ allZero)
    (he : b ≠ emptySentinel) : codecEncode b fl = .ok (b64e (pack b (flagsValue fl))) := by
  rcases codecEncode_cases b fl with ⟨h, -⟩ | ⟨-, h, -⟩ | ⟨-, -, -, e⟩
  · rw [hfl] at h; cases h
  · exact absurd h (not_or.mpr ⟨hz, he⟩)
  · exact e

/-- R97: bytes with a payload are an answer. -/
theorem codecDecode_of_payload {n : Byte} {cs : Characters} {b : Identifier} (hb : b64d n cs = .ok b)
    (h : payloadZero b = false) : codecDecode n cs = .ok (normalizeMarkers b, markerFlags b) := by
  rcases codecDecode_cases n cs with ⟨_, hb', -⟩ | ⟨d, hb', hd, -⟩ | ⟨d, hb', -, e⟩ <;> rw [hb] at hb' <;> cases hb'
  · rw [(normalizeMarkers_eq_emptySentinel_iff b).mp hd] at h; cases h
  · exact e

/-- R97, R23: bytes with a zero payload normalize to EmptySentinel. -/
theorem codecDecode_of_payloadZero {n : Byte} {cs : Characters} {b : Identifier} (hb : b64d n cs = .ok b)
    (h : payloadZero b = true) : codecDecode n cs = .error .invalidValue := by
  rcases codecDecode_cases n cs with ⟨_, hb', -⟩ | ⟨d, hb', -, e⟩ | ⟨d, hb', hd, -⟩ <;> rw [hb] at hb' <;> cases hb'
  · exact e
  · exact absurd ((normalizeMarkers_eq_emptySentinel_iff b).mpr h) hd

/-! ### The round trip (R123) -/

/-- R123: `decode` of the text of packed bytes. -/
theorem codecDecode_b64e_pack {g : Identifier} (f : FlagsValue) (h : payloadZero g = false) :
    codecDecode 22#8 (b64e (pack g f)) = .ok (normalizeMarkers g, f) := by
  rw [codecDecode_of_payload (b64d_b64e _) ((payloadZero_pack g f).trans h), normalizeMarkers_pack, markerFlags_pack]

/-- R123: an identifier with a payload is none of those `encode` refuses. -/
theorem codecEncode_of_payload {g : Identifier} {fl : Byte} (hfl : flagsInRange fl = true) (h : payloadZero g = false) :
    codecEncode g fl = .ok (b64e (pack g (flagsValue fl))) :=
  codecEncode_of_accepted hfl (ne_reserved_of_payload h).1 (ne_reserved_of_payload h).2

/-- R123 in registers: the state after `ENC` and the state after `DEC`. -/
theorem exec_enc_then_dec {s : State} (hfl : flagsInRange s.fl = true) (h : payloadZero s.ident = false) :
    ∃ t, exec .enc s = .next (done t) ∧
      exec .dec (done t) = .next (done (setFlags (flagsValue s.fl) (setIdent (normalizeMarkers s.ident) (done t)))) :=
  ⟨_, exec_enc_of_ok (codecEncode_of_payload hfl h),
    exec_dec_of_ok (s := done (setString _ s)) (codecDecode_b64e_pack (flagsValue s.fl) h)⟩

/-- Settles O34: the functions by the inverses of the units, the registers by what the two commands write. -/
theorem encodeThenDecodeRoundTrip : Obligations.EncodeThenDecodeRoundTrip := by
  refine ⟨fun g f h => ?_, fun s h hfl => ?_⟩
  · refine ⟨_, codecEncode_of_payload (flagsInRange_setWidth f) h, ?_⟩
    rw [flagsValue_setWidth, codecDecode_b64e_pack f h]
  · have hrange := (flagsInRange_iff_toNat_le s.fl).mpr hfl
    obtain ⟨t, henc, hdec⟩ := exec_enc_then_dec hrange h
    exact ⟨_, _, henc, rfl, hdec, rfl, rfl, flagsByte_flagsValue hrange⟩

/-- Settles O35: under the flags a zero payload is AllZero's, and AllZero packed with 0 and 36 are the two identifiers refused. -/
theorem zeroPayloadEncodesButDoesNotDecode : Obligations.ZeroPayloadEncodesButDoesNotDecode := by
  refine ⟨fun g f h hz he => ⟨?_, ?_⟩, fun g => ⟨?_, ?_⟩⟩
  · have hpack : pack g f = pack allZero f := withMarkers_of_payloadZero h _ _
    rw [codecEncode_of_accepted (flagsInRange_setWidth f) hz he, flagsValue_setWidth, hpack]
  · exact codecDecode_of_payloadZero (b64d_b64e _) ((payloadZero_pack allZero f).trans payloadZero_allZero)
  · rintro ⟨h, hz, he⟩
    obtain ⟨m, rfl, -⟩ := (payloadZero_iff_existsUnique_pack g).mp h
    obtain ⟨hzero, hempty⟩ := pack_allZero_reserved_iff m
    exact ⟨m, mt hzero.mpr hz, mt hempty.mpr he, rfl⟩
  · rintro ⟨m, h0, h36, rfl⟩
    obtain ⟨hzero, hempty⟩ := pack_allZero_reserved_iff m
    exact ⟨(payloadZero_pack allZero m).trans payloadZero_allZero, mt hzero.mp h0, mt hempty.mp h36⟩

/-! ### The round trip of an enumeration value (R118) -/

/-- R116: a value in range is the number of the flags value presented. -/
theorem toNat_flagsValue_presentFlags {v : Int} (h : 0 ≤ v ∧ v ≤ 63) :
    ((flagsValue (presentFlags v)).toNat : Int) = v := by
  rw [← toNat_flagsByte, flagsByte_flagsValue ((flagsInRange_presentFlags v).mpr h), toNat_presentFlags (by omega)]

/-- Settles O52: the round trip of the registers, on the byte presented. -/
theorem enumValueRoundTrip : Obligations.EnumValueRoundTrip := by
  intro s v hlow hhigh h
  obtain ⟨t, henc, hdec⟩ :=
    exec_enc_then_dec (s := { s with fl := presentFlags v }) ((flagsInRange_presentFlags v).mpr ⟨hlow, hhigh⟩) h
  refine ⟨_, _, henc, hdec, rfl, ?_, rfl⟩
  rw [done_fl, setFlags_fl, toNat_flagsByte]
  exact toNat_flagsValue_presentFlags ⟨hlow, hhigh⟩

/-- R117: presenting the characters of a full string loads them as they are. -/
theorem presentString_toList (cs : Characters) (s : State) :
    (presentString cs.toList s).slen = 22#8 ∧ (presentString cs.toList s).sf = cs := by
  have hlen : cs.toList.length = 22 := cs.length_toList
  exact ⟨(presentString_slen_eq_iff _ s).mpr hlen, (presentString_sf hlen s).trans (charsOfBytes_toList cs)⟩

/-- R117: `decodeWithEnum` of a string of 22 characters that `decode` takes. -/
theorem decodeWithEnum_toList_of_ok {k : IntKind} {cs : Characters} {g : Identifier} {f : FlagsValue} (s : State)
    (hk : recognizedKind k = true) (h : codecDecode 22#8 cs = .ok (g, f)) :
    ∃ u, decodeWithEnum k cs.toList s = .next (u, .ok (g, ⟨k, (f.toNat : Int)⟩)) := by
  obtain ⟨hslen, hsf⟩ := presentString_toList cs s
  exact ⟨_, decodeWithEnum_of_ok hk (by rw [hslen, hsf, h])⟩

/-- Settles O56: each call answers what the codec answers, and the codec's round trip is R123. -/
theorem enumAdapterRoundTrip : Obligations.EnumAdapterRoundTrip := by
  intro e g s hk hlow hhigh h
  have henc := encodeWithEnum_of_ok s hk (codecEncode_of_payload ((flagsInRange_presentFlags e.value).mpr ⟨hlow, hhigh⟩) h)
  obtain ⟨u, hdec⟩ := decodeWithEnum_toList_of_ok _ hk (codecDecode_b64e_pack (flagsValue (presentFlags e.value)) h)
  rw [toNat_flagsValue_presentFlags ⟨hlow, hhigh⟩] at hdec
  exact ⟨_, _, u, henc, hdec⟩

end Sys2Proof.Machine

/-!
The commands of the encode family by their checks (R83 to R85, R127, R128), and what relates the commands to one another: canonical
markers after decoding (R131, R132), the composed commands and the units in sequence (R134), the registers a command keeps (R34), a
command twice in a row (R47).
-/

namespace Sys2Proof.Machine

/-! ### The three commands of the family (R83 to R85) -/

/-- Settles O17: the two sides of the range check; the flags value's two parts are slices of `FL`. -/
theorem packWritesFlagsOverMarkers : Obligations.PackWritesFlagsOverMarkers := by
  refine ⟨rfl, fun s => ⟨fun h => ?_, fun h => ?_⟩⟩
  · obtain ⟨hnibble, hpair⟩ := flagsValue_parts s.fl
    rw [exec_pack_of_inRange ((flagsInRange_iff s.fl).mpr h), pack, hnibble, hpair]
    rfl
  · rw [exec_pack_of_not_inRange ((flagsInRange_eq_false_iff s.fl).mpr h)]
    rfl

/-- Settles O19: the last sextet is two bits of the last byte over zeros, so its character is one of four. -/
theorem b64eEncodesEveryIdentifier : Obligations.B64eEncodesEveryIdentifier := by
  refine ⟨rfl, fun s => ⟨exec_b64e s, ?_⟩⟩
  rw [getElem_b64e _ 21 (by omega), sextetsOf_last]
  generalize s.ident[15].extractLsb 1 0 = x
  revert x
  decide

/-- Settles O21: by the three answers of `encode`. -/
theorem encChecksAndEncodes : Obligations.EncChecksAndEncodes := by
  refine ⟨rfl, fun s => ⟨fun h => ?_, fun h hb => ?_, fun h hz he => ?_⟩⟩
  · exact exec_enc_of_error (codecEncode_of_not_inRange ((flagsInRange_eq_false_iff s.fl).mpr h))
  · exact exec_enc_of_error (codecEncode_of_reserved ((flagsInRange_iff s.fl).mpr h) hb)
  · exact exec_enc_of_ok (codecEncode_of_accepted ((flagsInRange_iff s.fl).mpr h) hz he)

/-- Settles O37: the range check comes first, the identifier check second. -/
theorem encodeRejections : Obligations.EncodeRejections := by
  refine ⟨fun s h => ?_, fun s h hb => ?_⟩
  · have hrange := (flagsInRange_eq_false_iff_le_toNat s.fl).mpr h
    have hcodec : codecEncode s.ident s.fl = .error .range := codecEncode_of_not_inRange hrange
    exact ⟨hcodec, exec_enc_of_error hcodec, exec_pack_of_not_inRange hrange⟩
  · have hcodec := codecEncode_of_reserved ((flagsInRange_iff_toNat_le s.fl).mpr h) hb
    exact ⟨hcodec, exec_enc_of_error hcodec⟩

/-! ### Canonical markers after decoding (R131, R132) -/

/-- R97: what `decode` answers is a normalized identifier other than EmptySentinel. -/
theorem codecDecode_ok {n : Byte} {cs : Characters} {g : Identifier} {f : FlagsValue} (h : codecDecode n cs = .ok (g, f)) :
    ∃ b, g = normalizeMarkers b ∧ normalizeMarkers b ≠ emptySentinel := by
  rcases codecDecode_cases n cs with ⟨_, -, e⟩ | ⟨_, -, -, e⟩ | ⟨b, -, hne, e⟩ <;> rw [e] at h <;> cases h
  exact ⟨b, rfl, hne⟩

/-- R82: what `encode` accepts. -/
theorem ne_reserved_of_codecEncode_ok {g : Identifier} {fl : Byte} {cs : Characters} (h : codecEncode g fl = .ok cs) :
    g ≠ allZero ∧ g ≠ emptySentinel := by
  rcases codecEncode_cases g fl with ⟨-, e⟩ | ⟨-, -, e⟩ | ⟨-, hz, he, -⟩
  · rw [e] at h; cases h
  · rw [e] at h; cases h
  · exact ⟨hz, he⟩

/-- R99 to R101: what a successful `DEC`, `TRYDEC` or `UNPACK` leaves in `ID` and `FL`. -/
theorem exec_decoder_of_ok {i : Instr} {s t : State} (hi : i = .dec ∨ i = .trydec ∨ i = .unpack) (h : exec i s = .next t)
    (hok : t.status = 0x01#8) : ∃ b, t.ident = normalizeMarkers b ∧ t.fl = flagsByte (markerFlags b) := by
  rcases exec_cases h with ⟨e, rfl, -⟩ | ⟨-, rfl⟩ | ⟨rfl, -⟩ | ⟨rfl, -⟩ | ⟨rfl, -⟩ | ⟨-, rfl⟩ |
    ⟨b, -, ⟨rfl, -⟩ | ⟨-, -, rfl⟩⟩
  · exact absurd hok (errorStatus_ne_ok e)
  · exact absurd (show probeFailedStatus = 0x01#8 from hok) (by decide)
  · simp at hi
  · simp at hi
  · simp at hi
  · exact ⟨s.ident, rfl, rfl⟩
  · simp at hi
  · exact ⟨b, rfl, rfl⟩

/-- Settles O39: normalized identifiers are canonical; the two exceptions run on the text of AllZero and on the reset state. -/
theorem decodedIdentifiersAreCanonical : Obligations.DecodedIdentifiersAreCanonical := by
  refine ⟨fun n cs g f h => ?_, fun g fl cs => ne_reserved_of_codecEncode_ok, fun i s hi => ?_, ?_, ?_⟩
  · obtain ⟨b, rfl, hne⟩ := codecDecode_ok h
    exact ⟨canonical_normalizeMarkers b, normalizeMarkers_ne_allZero b, hne⟩
  · obtain ⟨t, ht⟩ := exec_answers_next i s
    refine ⟨t, ht, fun hok => ?_⟩
    obtain ⟨b, hident, hfl⟩ := exec_decoder_of_ok hi ht hok
    obtain ⟨hversion, hvariant⟩ := (canonical_iff _).mp (canonical_normalizeMarkers b)
    rw [hident, hfl, toNat_flagsByte]
    exact ⟨hversion, hvariant, Nat.le_of_lt_succ (markerFlags b).isLt⟩
  · exact ⟨{ State.reset with slen := 22#8, sf := b64e allZero }, _, exec_b64d_of_ok (b64d_b64e allZero), rfl, rfl⟩
  · exact ⟨State.reset, _, exec_unpack_reset, rfl, rfl⟩

/-! ### The composed commands and the units in sequence (R134) -/

/-- R134(a): `ENC` beside `PACK` and then `B64E`, by the three answers of `encode`. -/
theorem exec_enc_beside_units (s : State) : ∃ t, exec .enc s = .next t ∧
    (t.status = 0x01#8 → t.ident = s.ident ∧ ∃ p q, exec .pack s = .next p ∧ exec .b64e p = .next q ∧
      q.status = 0x01#8 ∧ q.sf = t.sf ∧ q.slen = t.slen ∧ q.ident = pack s.ident (s.fl.extractLsb 5 0)) ∧
    (t.status = 0x08#8 → ∃ p q, exec .pack s = .next p ∧ p.status = 0x01#8 ∧ exec .b64e p = .next q ∧
      q.status = 0x01#8) ∧
    (s.fl.extractLsb 7 6 ≠ 0b00#2 → t.status = 0x06#8 ∧ ∃ p, exec .pack s = .next p ∧ p.status = 0x06#8) := by
  rw [← flagsInRange_eq_false_iff]
  rcases codecEncode_cases s.ident s.fl with ⟨hfl, e⟩ | ⟨hfl, -, e⟩ | ⟨hfl, -, -, e⟩
  · refine ⟨_, exec_enc_of_error e, fun hok => absurd hok (errorStatus_ne_ok _), fun h => ?_, fun _ => ?_⟩
    · exact absurd (show errorStatus .range = 0x08#8 from h) (by decide)
    · exact ⟨rfl, _, exec_pack_of_not_inRange hfl, rfl⟩
  · refine ⟨_, exec_enc_of_error e, fun hok => absurd hok (errorStatus_ne_ok _), fun _ => ?_, fun h => ?_⟩
    · exact ⟨_, _, exec_pack_of_inRange hfl, rfl, exec_b64e _, rfl⟩
    · rw [hfl] at h; cases h
  · refine ⟨_, exec_enc_of_ok e, fun _ => ?_, fun h => ?_, fun h => ?_⟩
    · exact ⟨rfl, _, _, exec_pack_of_inRange hfl, exec_b64e _, rfl, rfl, rfl, rfl⟩
    · exact absurd (show okStatus = 0x08#8 from h) (by decide)
    · rw [hfl] at h; cases h

/-- R134(b): `DEC` beside `B64D` and then `UNPACK`, by the answers of `decode`. -/
theorem exec_dec_beside_units (s : State) : ∃ t, exec .dec s = .next t ∧
    (t.status = 0x01#8 → ∃ p q, exec .b64d s = .next p ∧ exec .unpack p = .next q ∧ q.ident = t.ident ∧ q.fl = t.fl) ∧
    (t.status = 0x02#8 ∨ t.status = 0x04#8 → ∃ p, exec .b64d s = .next p ∧ p.status = t.status ∧ p.ident = s.ident) ∧
    (t.status = 0x08#8 → ∃ p q, exec .b64d s = .next p ∧ p.status = 0x01#8 ∧ exec .unpack p = .next q ∧
      q.status = 0x01#8 ∧ q.ident = emptySentinel) := by
  rcases codecDecode_cases s.slen s.sf with ⟨x, hb, e⟩ | ⟨b, hb, hempty, e⟩ | ⟨b, hb, -, e⟩
  · refine ⟨_, exec_dec_of_error e, fun hok => absurd hok (errorStatus_ne_ok x), fun _ => ?_, fun h => ?_⟩
    · exact ⟨_, exec_b64d_of_error hb, rfl, rfl⟩
    · have hx : errorStatus x = 0x08#8 := h
      rcases b64d_error hb with rfl | rfl
      · exact absurd hx (by decide)
      · exact absurd hx (by decide)
  · refine ⟨_, exec_dec_of_error e, fun hok => absurd hok (errorStatus_ne_ok _), fun h => ?_, fun _ => ?_⟩
    · exact absurd (show errorStatus .invalidValue = 0x02#8 ∨ errorStatus .invalidValue = 0x04#8 from h) (by decide)
    · exact ⟨_, _, exec_b64d_of_ok hb, rfl, exec_unpack _, rfl, hempty⟩
  · refine ⟨_, exec_dec_of_ok e, fun _ => ?_, fun h => ?_, fun h => ?_⟩
    · exact ⟨_, _, exec_b64d_of_ok hb, exec_unpack _, rfl, rfl⟩
    · exact absurd (show okStatus = 0x02#8 ∨ okStatus = 0x04#8 from h) (by decide)
    · exact absurd (show okStatus = 0x08#8 from h) (by decide)

/-- Settles O40: R134's two parts. -/
theorem composedCommandsAreUnitsInSequence : Obligations.ComposedCommandsAreUnitsInSequence :=
  ⟨exec_enc_beside_units, exec_dec_beside_units⟩

/-! ### What a command leaves as it was (R34) -/

section
variable {i : Instr} {s t : State}

/-- Log 1, log 3: no command touches the host's side of the port. -/
theorem exec_sameHost (h : exec i s = .next t) : SameHost s t := by
  rcases exec_cases h with ⟨e, rfl, -⟩ | ⟨-, rfl⟩ | ⟨-, -, -, -, rfl⟩ | ⟨-, rfl⟩ | ⟨-, -, rfl⟩ | ⟨-, rfl⟩ |
    ⟨b, -, ⟨-, rfl⟩ | ⟨-, -, rfl⟩⟩
  all_goals exact ⟨rfl, rfl⟩

/-- `ENC` and `B64E` alone write `SF` and `SLEN`. -/
theorem exec_keeps_string (h : exec i s = .next t) (hi : i ≠ .enc ∧ i ≠ .b64e) : t.slen = s.slen ∧ t.sf = s.sf := by
  obtain ⟨henc, hb64e⟩ := hi
  rcases exec_cases h with ⟨e, rfl, -⟩ | ⟨-, rfl⟩ | ⟨hi, -⟩ | ⟨hi, -⟩ | ⟨-, -, rfl⟩ | ⟨-, rfl⟩ |
    ⟨b, -, ⟨-, rfl⟩ | ⟨-, -, rfl⟩⟩
  exacts [⟨rfl, rfl⟩, ⟨rfl, rfl⟩, absurd hi henc, absurd hi hb64e, ⟨rfl, rfl⟩, ⟨rfl, rfl⟩, ⟨rfl, rfl⟩, ⟨rfl, rfl⟩]

/-- `DEC`, `TRYDEC` and `UNPACK` alone write `FL`. -/
theorem exec_keeps_fl (h : exec i s = .next t) (hi : i ≠ .dec ∧ i ≠ .trydec ∧ i ≠ .unpack) : t.fl = s.fl := by
  obtain ⟨hdec, htrydec, hunpack⟩ := hi
  rcases exec_cases h with ⟨e, rfl, -⟩ | ⟨-, rfl⟩ | ⟨-, -, -, -, rfl⟩ | ⟨-, rfl⟩ | ⟨-, -, rfl⟩ | ⟨hi, -⟩ |
    ⟨b, -, ⟨-, rfl⟩ | ⟨hi, -⟩⟩
  exacts [rfl, rfl, rfl, rfl, rfl, absurd hi hunpack, rfl, (hi.elim hdec htrydec).elim]

/-- `ENC` and `B64E` keep the identifier they encode. -/
theorem exec_encoder_keeps_ident (h : exec i s = .next t) (hi : i = .enc ∨ i = .b64e) : t.ident = s.ident := by
  rcases hi with rfl | rfl
  · cases hcodec : codecEncode s.ident s.fl with
    | error e => rw [exec_enc_of_error hcodec] at h; cases h; rfl
    | ok cs => rw [exec_enc_of_ok hcodec] at h; cases h; rfl
  · cases h; rfl

/-- R83, R99: `PACK` and `UNPACK` write the two marker bytes of `ID` alone. -/
theorem exec_flagsCodec_keeps_payload_bytes (h : exec i s = .next t) (hi : i = .pack ∨ i = .unpack) (j : Nat)
    (hj : j < 16) (h7 : j ≠ 7) (h8 : j ≠ 8) : t.ident[j] = s.ident[j] := by
  rcases hi with rfl | rfl
  · cases hfl : flagsInRange s.fl with
    | false => rw [exec_pack_of_not_inRange hfl] at h; cases h; rfl
    | true => rw [exec_pack_of_inRange hfl] at h; cases h; exact withMarkers_other _ _ _ j hj h7 h8
  · cases h; exact withMarkers_other _ _ _ j hj h7 h8

end

/-- Settles O45, register by register. -/
theorem commandWriteSets : Obligations.CommandWriteSets := by
  intro i s
  obtain ⟨t, ht⟩ := exec_answers_next i s
  refine ⟨t, ht, exec_sameHost ht, fun hi => ⟨exec_encoder_keeps_ident ht hi, exec_keeps_fl ht ?_⟩,
    fun hi => exec_keeps_string ht ?_, fun hi => ?_, fun hi => exec_keeps_fl ht ?_, fun hi => ?_⟩
  · rcases hi with rfl | rfl <;> decide
  · rcases hi with rfl | rfl <;> decide
  · subst hi
    obtain ⟨hslen, hsf⟩ := exec_keeps_string ht (by decide)
    exact ⟨hslen, hsf, exec_keeps_fl ht (by decide)⟩
  · subst hi; decide
  · obtain ⟨hslen, hsf⟩ := exec_keeps_string ht (by rcases hi with rfl | rfl <;> decide)
    exact ⟨hslen, hsf, exec_flagsCodec_keeps_payload_bytes ht hi⟩

/-! ### A command twice in a row (R47) -/

/-- R47: a command that writes none of what it reads answers the same again, and `PACK` writes the same flags over the same
payload. -/
theorem exec_again {i : Instr} (hi : i ≠ .unpack) (s : State) : ∃ t, exec i s = .next t ∧ exec i t = .next t := by
  cases i with
  | enc =>
    cases h : codecEncode s.ident s.fl with
    | error e => exact ⟨_, exec_enc_of_error h, exec_enc_of_error (s := raise e s) h⟩
    | ok cs => exact ⟨_, exec_enc_of_ok h, exec_enc_of_ok (s := done (setString cs s)) h⟩
  | dec =>
    cases h : codecDecode s.slen s.sf with
    | error e => exact ⟨_, exec_dec_of_error h, exec_dec_of_error (s := raise e s) h⟩
    | ok r => exact ⟨_, exec_dec_of_ok h, exec_dec_of_ok (s := done (setFlags r.2 (setIdent r.1 s))) h⟩
  | trydec =>
    cases h : codecDecode s.slen s.sf with
    | error e => exact ⟨_, exec_trydec_of_error h, exec_trydec_of_error (s := probeFailed s) h⟩
    | ok r => exact ⟨_, exec_trydec_of_ok h, exec_trydec_of_ok (s := done (setFlags r.2 (setIdent r.1 s))) h⟩
  | pack =>
    cases h : flagsInRange s.fl with
    | false => exact ⟨_, exec_pack_of_not_inRange h, exec_pack_of_not_inRange (s := raise .range s) h⟩
    | true =>
      refine ⟨_, exec_pack_of_inRange h, (exec_pack_of_inRange ?_).trans ?_⟩
      · exact h
      · rw [done_ident, setIdent_ident, done_fl, setIdent_fl, pack_pack]
        rfl
  | unpack => exact absurd rfl hi
  | b64e => exact ⟨_, exec_b64e s, exec_b64e _⟩
  | b64d =>
    cases h : b64d s.slen s.sf with
    | error e => exact ⟨_, exec_b64d_of_error h, exec_b64d_of_error (s := raise e s) h⟩
    | ok b => exact ⟨_, exec_b64d_of_ok h, exec_b64d_of_ok (s := done (setIdent b s)) h⟩

/-- R47: a second `UNPACK` reads the canonical markers the first one wrote, which are the flags 36. -/
theorem exec_unpack_again (s : State) :
    ∃ t, exec .unpack s = .next t ∧ exec .unpack t = .next { t with fl := 36#8 } := by
  have hflags : markerFlags (normalizeMarkers s.ident) = 36#6 := markerFlags_pack s.ident 36#6
  refine ⟨_, exec_unpack s, ?_⟩
  rw [exec_unpack, done_ident, setFlags_ident, setIdent_ident, hflags, normalizeMarkers_idempotent]
  rfl

/-- Settles O47. -/
theorem repeatedCommands : Obligations.RepeatedCommands := ⟨fun _ s hi => exec_again hi s, exec_unpack_again⟩

end Sys2Proof.Machine

/-!
The commands of the decode family by their checks (R98 to R101), the strings `decode` refuses (R129, R130), and `TRYDEC` beside `DEC`
(R137). The length and the alphabet are checked once, in `b64d`, and `DEC` and `TRYDEC` have one more check, on the decoded bytes; so
each command's cases are the answers of `b64d` and `decode`.
-/

namespace Sys2Proof.Machine

/-! ### What `b64d` and `decode` answer (R95, R97) -/

theorem charsOk_eq_false_iff (cs : Characters) : charsOk cs = false ↔ ∃ k : Fin 22, inAlpha cs[k] = false := by
  rw [← Bool.not_eq_true, charsOk_iff, not_forall]
  simp only [Bool.not_eq_true]

/-- R95: the alphabet check comes when the length is right. -/
theorem b64d_of_outside {n : Byte} {cs : Characters} (hn : n = 22#8) (h : ∃ k : Fin 22, inAlpha cs[k] = false) :
    b64d n cs = .error .format := by
  rcases b64d_cases n cs with ⟨hne, -⟩ | ⟨-, -, e⟩ | ⟨-, hok, -⟩
  · exact absurd hn hne
  · exact e
  · rw [(charsOk_eq_false_iff cs).mpr h] at hok; cases hok

/-- R95: the bytes come when both checks pass. -/
theorem b64d_of_inside {n : Byte} {cs : Characters} (hn : n = 22#8) (h : ∀ k : Fin 22, inAlpha cs[k] = true) :
    b64d n cs = .ok (bytesOf (sextetsOfChars cs)) := by
  rw [hn]
  exact b64d_of_checks ((charsOk_iff cs).mpr h)

theorem codecDecode_of_outside {n : Byte} {cs : Characters} (hn : n = 22#8) (h : ∃ k : Fin 22, inAlpha cs[k] = false) :
    codecDecode n cs = .error .format := codecDecode_of_b64d_error (b64d_of_outside hn h)

/-- R97: the check on the decoded bytes, failed. -/
theorem codecDecode_of_empty {n : Byte} {cs : Characters} {b : Identifier} (hb : b64d n cs = .ok b)
    (h : normalizeMarkers b = emptySentinel) : codecDecode n cs = .error .invalidValue :=
  codecDecode_of_payloadZero hb ((normalizeMarkers_eq_emptySentinel_iff b).mp h)

/-- R97: the check on the decoded bytes, passed. -/
theorem codecDecode_of_not_empty {n : Byte} {cs : Characters} {b : Identifier} (hb : b64d n cs = .ok b)
    (h : normalizeMarkers b ≠ emptySentinel) : codecDecode n cs = .ok (normalizeMarkers b, markerFlags b) := by
  refine codecDecode_of_payload hb ?_
  rwa [Ne, normalizeMarkers_eq_emptySentinel_iff, Bool.not_eq_true] at h

/-- R97: the kinds `decode` answers. -/
theorem codecDecode_error {n : Byte} {cs : Characters} {e : ErrKind} (h : codecDecode n cs = .error e) :
    e = .length ∨ e = .format ∨ e = .invalidValue := by
  rcases codecDecode_cases n cs with ⟨x, hb, hx⟩ | ⟨_, -, -, hx⟩ | ⟨_, -, -, hx⟩ <;> rw [hx] at h <;> cases h
  · rcases b64d_error hb with rfl | rfl
    · exact .inl rfl
    · exact .inr (.inl rfl)
  · exact .inr (.inr rfl)

/-- R97, R23: `decode` answers InvalidValueError for a text of bytes with a zero payload, and for nothing else. -/
theorem codecDecode_invalidValue_iff (n : Byte) (cs : Characters) :
    codecDecode n cs = .error .invalidValue ↔ ∃ b, b64d n cs = .ok b ∧ payloadZero b = true := by
  constructor
  · intro h
    rcases codecDecode_cases n cs with ⟨x, hb, hx⟩ | ⟨b, hb, hempty, -⟩ | ⟨_, -, -, hx⟩
    · rw [hx] at h
      cases h
      rcases b64d_error hb with hkind | hkind <;> cases hkind
    · exact ⟨b, hb, (normalizeMarkers_eq_emptySentinel_iff b).mp hempty⟩
    · rw [hx] at h; cases h
  · rintro ⟨b, hb, hzero⟩
    exact codecDecode_of_payloadZero hb hzero

/-! ### What the four commands write (R98 to R101) -/

/-- R96: the byte a decoder writes to `FL` is the two marker fields under two zero bits. -/
theorem flagsByte_markerFlags (b : Identifier) :
    flagsByte (markerFlags b) = 0b00#2 ++ b[8].extractLsb 7 6 ++ b[7].extractLsb 7 4 := by
  rw [markerFlags]
  generalize b[8].extractLsb 7 6 = hi, b[7].extractLsb 7 4 = lo
  revert hi lo
  decide

/-- R99 to R101: the whole state after a command has written an identifier `g` and the flags of `b`. -/
theorem done_setFlags_markerFlags (b g : Identifier) (s : State) :
    done (setFlags (markerFlags b) (setIdent g s)) =
      { s with
        ident := g
        fl := 0b00#2 ++ b[8].extractLsb 7 6 ++ b[7].extractLsb 7 4
        status := 0x01#8 } := by
  rw [← flagsByte_markerFlags]
  rfl

/-- Settles O18: one write of `ID` and `FL`, both from the identifier at the start. -/
theorem unpackExtractsFlagsAndRestoresMarkers : Obligations.UnpackExtractsFlagsAndRestoresMarkers := by
  refine ⟨rfl, fun s => ?_⟩
  rw [exec_unpack, done_setFlags_markerFlags]
  rfl

/-- Settles O20: by the three answers of `b64d`. -/
theorem b64dChecksAndDecodes : Obligations.B64dChecksAndDecodes := by
  refine ⟨rfl, fun s => ⟨fun hlen => ?_, fun hlen hout => ?_, fun hlen hin => ?_⟩⟩
  · exact exec_b64d_of_error (b64d_of_length_ne hlen s.sf)
  · exact exec_b64d_of_error (b64d_of_outside hlen hout)
  · exact exec_b64d_of_ok (b64d_of_inside hlen hin)

/-- Settles O22: by the four answers of `decode`. -/
theorem decChecksAndDecodes : Obligations.DecChecksAndDecodes := by
  refine ⟨rfl, fun s => ⟨fun hlen => ?_, fun hlen hout => ?_, ?_⟩⟩
  · exact exec_dec_of_error (codecDecode_of_length_ne hlen s.sf)
  · exact exec_dec_of_error (codecDecode_of_outside hlen hout)
  · rintro hlen hin b rfl
    have hb := b64d_of_inside hlen hin
    refine ⟨fun hempty => exec_dec_of_error (codecDecode_of_empty hb hempty), fun hne => ?_⟩
    rw [exec_dec_of_ok (codecDecode_of_not_empty hb hne), done_setFlags_markerFlags]

/-- Settles O23: by the four answers of `decode`, of whose errors the probe keeps no kind. -/
theorem trydecProbes : Obligations.TrydecProbes := by
  refine ⟨rfl, fun s => ⟨fun hlen => ?_, fun hlen hout => ?_, ?_⟩⟩
  · exact exec_trydec_of_error (codecDecode_of_length_ne hlen s.sf)
  · exact exec_trydec_of_error (codecDecode_of_outside hlen hout)
  · rintro hlen hin b rfl
    have hb := b64d_of_inside hlen hin
    refine ⟨fun hempty => exec_trydec_of_error (codecDecode_of_empty hb hempty), fun hne => ?_⟩
    rw [exec_trydec_of_ok (codecDecode_of_not_empty hb hne), done_setFlags_markerFlags]

/-! ### `TRYDEC` beside `DEC` (R137) -/

/-- Settles O41: both commands are functions of the one answer of `decode`. -/
theorem trydecAgreesWithDec : Obligations.TrydecAgreesWithDec := by
  intro s
  cases h : codecDecode s.slen s.sf with
  | error e =>
    have hdec : (raise e s).status ≠ 0x01#8 := errorStatus_ne_ok e
    have htrydec : (probeFailed s).status ≠ 0x01#8 := by rw [probeFailed_status]; decide
    refine ⟨_, _, exec_dec_of_error h, exec_trydec_of_error h, iff_of_false htrydec hdec, fun hok => absurd hok hdec,
      fun _ => ⟨rfl, rfl, rfl, rfl, ?_, rfl⟩⟩
    rcases codecDecode_error h with rfl | rfl | rfl
    · exact .inl rfl
    · exact .inr (.inl rfl)
    · exact .inr (.inr rfl)
  | ok r =>
    exact ⟨_, _, exec_dec_of_ok h, exec_trydec_of_ok h, Iff.rfl, fun _ => ⟨rfl, rfl⟩, fun hne => absurd rfl hne⟩

/-! ### The strings `decode` refuses (R129, R130) -/

/-- R68: the last sextet is two bits of the last byte over the spare bits. -/
theorem sextetsWithSpare_last_append (b : Identifier) (x : BitVec 4) :
    (sextetsWithSpare b x)[21] = b[15].extractLsb 1 0 ++ x := by
  refine eq_append_of_getLsbD (n := 2) (m := 4) (fun t ht => ?_) (fun t ht => ?_)
  · have hlow : t < 6 := by omega
    rw [← getLsbD_append_low (catBytes b) x ht]
    simp [sextetsWithSpare, hlow]
  · have hbyte : (catBytes b).getLsbD t = b[15].getLsbD t := by
      rw [getLsbD_catBytes b t (by omega)]
      have hdiv : 15 - t / 8 = 15 := by omega
      have hmod : t % 8 = t := by omega
      simp only [hdiv, hmod]
    have hhigh : 4 + t < 6 := by omega
    rw [sextetsWithSpare, Vector.getElem_ofFn, BitVec.getLsbD_extractLsb', getLsbD_append_high _ _ (by omega)]
    simp [ht, hhigh, hbyte]

/-- R68, R69: the texts of the same bytes are the encoder's with the last character replaced. -/
theorem textWithSpare_eq_set (b : Identifier) (x : BitVec 4) :
    textWithSpare b x = (b64e b).set 21 (alpha (b[15].extractLsb 1 0 ++ x)) := by
  ext k hk : 1
  by_cases hlast : k = 21
  · subst hlast
    rw [Vector.getElem_set_self, getElem_textWithSpare, sextetsWithSpare_last_append]
  · rw [Vector.getElem_set_ne _ _ (Ne.symm hlast), b64e_eq_textWithSpare]
    exact (textWithSpare_agree b x 0b0000#4).1 k (by omega)

/-- R80: the last byte of AllZero is all payload, so no flags reach it. -/
theorem textWithSpare_pack_allZero (f : FlagsValue) (x : BitVec 4) :
    textWithSpare (pack allZero f) x = (b64e (pack allZero f)).set 21 (alpha (0b00#2 ++ x)) := by
  have hbyte : (pack allZero f)[15] = 0x00#8 := withMarkers_other allZero _ _ 15 (by omega) (by omega) (by omega)
  rw [textWithSpare_eq_set, hbyte]
  rfl

/-- R130: the strings that decode to a zero payload are the texts of AllZero under some flags, with any spare bits. -/
theorem codecDecode_invalidValue_iff_text (cs : Characters) : codecDecode 22#8 cs = .error .invalidValue ↔
    ∃ (f : FlagsValue) (x : BitVec 4), cs = (b64e (pack allZero f)).set 21 (alpha (0b00#2 ++ x)) := by
  simp only [codecDecode_invalidValue_iff, ← textWithSpare_pack_allZero]
  constructor
  · rintro ⟨b, hb, hzero⟩
    obtain ⟨f, rfl, -⟩ := (payloadZero_iff_existsUnique_pack b).mp hzero
    exact ⟨f, _, eq_textWithSpare_of_b64d hb⟩
  · rintro ⟨f, x, rfl⟩
    exact ⟨_, b64d_textWithSpare _ x, (payloadZero_pack allZero f).trans payloadZero_allZero⟩

/-- Settles O38: by the answers of `b64d` and `decode`; the two strings named are the encodings of AllZero and EmptySentinel. -/
theorem decodeRejections : Obligations.DecodeRejections := by
  refine ⟨fun n cs hn => ⟨codecDecode_of_length_ne hn cs, b64d_of_length_ne hn cs⟩,
    fun cs hout => ⟨codecDecode_of_outside rfl hout, b64d_of_outside rfl hout⟩, codecDecode_invalidValue_iff_text, ?_, ?_⟩
  · rw [← b64e_allZero]
    exact codecDecode_of_payloadZero (b64d_b64e allZero) payloadZero_allZero
  · exact codecDecode_of_payloadZero (b64d_b64e emptySentinel) (by decide)

end Sys2Proof.Machine

/-!
The adapter over an integer kind that is not recognized, and code 5 of `STATUS.ERR` (42_flags_adapter.md R115). The code is host
software's alone: none of the values R27 lists for `STATUS` holds it, and those are all a command can leave.
-/

namespace Sys2Proof.Machine

/-! ### The recognized kinds (R115) -/

theorem recognizedKind_iff (k : IntKind) : recognizedKind k = true ↔
    k = .i8 ∨ k = .u8 ∨ k = .i16 ∨ k = .u16 ∨ k = .i32 ∨ k = .u32 ∨ k = .i64 ∨ k = .u64 := by
  cases k with
  | unrecognized => simp [recognizedKind]
  | i8 | u8 | i16 | u16 | i32 | u32 | i64 | u64 => simp [recognizedKind]

/-! ### The adapter over any other kind (R115, log 13) -/

theorem encodeWithEnum_of_not_recognized {e : EnumValue} (hk : recognizedKind e.kind = false) (g : Identifier) (s : State) :
    encodeWithEnum g e s = .next (s, .error (errCode .unsupportedType)) := by
  rw [encodeWithEnum, if_neg (Bool.eq_false_iff.mp hk), unsupportedKind]

theorem decodeWithEnum_of_not_recognized {k : IntKind} (hk : recognizedKind k = false) (c : List Byte) (s : State) :
    decodeWithEnum k c s = .next (s, .error (errCode .unsupportedType)) := by
  rw [decodeWithEnum, if_neg (Bool.eq_false_iff.mp hk), unsupportedKind]

/-! ### Code 5 in `STATUS` (R27, R140) -/

/-- R27: of the values `STATUS` takes none holds the code of UnsupportedTypeError. -/
theorem statusErr_ne_unsupportedType_of_statusLegal {v : Byte} (h : StatusLegal v) :
    statusErr v ≠ errCode .unsupportedType := by
  rcases h with rfl | rfl | rfl | rfl | rfl | rfl | rfl <;> decide

/-- Settles O50: the kinds by their cases, the adapter by its first check, the commands by the `STATUS` values R27 allows them. -/
theorem unsupportedKindNeverReachesTheBlock : Obligations.UnsupportedKindNeverReachesTheBlock := by
  refine ⟨recognizedKind_iff, fun k g v c s hk => ?_, fun i s => ?_⟩
  · exact ⟨encodeWithEnum_of_not_recognized (e := ⟨k, v⟩) hk g s, decodeWithEnum_of_not_recognized hk c s⟩
  · obtain ⟨t, ht⟩ := exec_answers_next i s
    exact ⟨t, ht, statusErr_ne_unsupportedType_of_statusLegal (exec_establishes_inv ht)⟩

end Sys2Proof.Machine

/-!
The error model (60_exceptions.md): a command that raises has written nothing but `STATUS` (R143), and `STATUS` then names the one
kind whose cause held first in R144's order (R140). `raise` names its kind, so what is left in `STATUS` says which `raise` ended the
command, and that is the error its pure function answered.
-/

namespace Sys2Proof.Machine

/-! ### The three ends of a command are told apart by `STATUS` (R140 to R142, R101) -/

/-- R140: the kinds have different codes. -/
theorem errorStatus_injective : Function.Injective errorStatus := by
  intro e e'
  cases e <;> cases e' <;> decide

theorem errorStatus_ne_probeFailed (e : ErrKind) : errorStatus e ≠ probeFailedStatus := by cases e <;> decide

theorem raise_eq_raise_iff {e e' : ErrKind} {s : State} : raise e s = raise e' s ↔ e = e' :=
  ⟨fun h => errorStatus_injective (congrArg State.status h), fun h => h ▸ rfl⟩

theorem raise_ne_done (e : ErrKind) (s u : State) : raise e s ≠ done u :=
  fun h => errorStatus_ne_ok e (congrArg State.status h)

/-! ### A command that does not succeed (R143) -/

/-- R143: `raise` and a failed probe write `STATUS` alone; every other end is `done`. -/
theorem exec_keeps_all_but_status {i : Instr} {s t : State} (h : exec i s = .next t) (hfail : t.status ≠ 0x01#8) :
    t = { s with status := t.status } := by
  rcases exec_cases h with ⟨_, rfl, -⟩ | ⟨-, rfl⟩ | ⟨-, -, -, -, rfl⟩ | ⟨-, rfl⟩ | ⟨-, -, rfl⟩ | ⟨-, rfl⟩ |
    ⟨_, -, ⟨-, rfl⟩ | ⟨-, -, rfl⟩⟩
  · rfl
  · rfl
  all_goals exact absurd rfl hfail

/-- Settles O44: the data registers are among all that `exec_keeps_all_but_status` keeps. -/
theorem failedCommandWritesStatusOnly : Obligations.FailedCommandWritesStatusOnly := by
  intro i s
  obtain ⟨t, ht⟩ := exec_answers_next i s
  refine ⟨t, ht, fun hfail => ?_⟩
  have hkept := exec_keeps_all_but_status ht hfail
  exact ⟨hkept ▸ ⟨rfl, rfl, rfl, rfl⟩, hkept⟩

/-! ### The errors of the pure functions, each exactly on its cause (R82, R95, R97, R144) -/

theorem codecEncode_range_iff (b : Identifier) (fl : Byte) :
    codecEncode b fl = .error .range ↔ fl.extractLsb 7 6 ≠ 0b00#2 := by
  rw [← flagsInRange_eq_false_iff]
  refine ⟨fun h => ?_, codecEncode_of_not_inRange⟩
  rcases codecEncode_cases b fl with ⟨hfl, -⟩ | ⟨-, -, e⟩ | ⟨-, -, -, e⟩
  · exact hfl
  · rw [e] at h; cases h
  · rw [e] at h; cases h

/-- R144: the range check comes before the identifier check. -/
theorem codecEncode_invalidValue_iff (b : Identifier) (fl : Byte) :
    codecEncode b fl = .error .invalidValue ↔ fl.extractLsb 7 6 = 0b00#2 ∧ (b = allZero ∨ b = emptySentinel) := by
  rw [← flagsInRange_iff]
  refine ⟨fun h => ?_, fun ⟨hfl, hb⟩ => codecEncode_of_reserved hfl hb⟩
  rcases codecEncode_cases b fl with ⟨-, e⟩ | ⟨hfl, hb, -⟩ | ⟨-, -, -, e⟩
  · rw [e] at h; cases h
  · exact ⟨hfl, hb⟩
  · rw [e] at h; cases h

section
variable (n : Byte) (cs : Characters)

theorem b64d_length_iff : b64d n cs = .error .length ↔ n ≠ 22#8 := by
  refine ⟨fun h => ?_, fun hn => b64d_of_length_ne hn cs⟩
  rcases b64d_cases n cs with ⟨hn, -⟩ | ⟨-, -, e⟩ | ⟨-, -, e⟩
  · exact hn
  · rw [e] at h; cases h
  · rw [e] at h; cases h

/-- R144: the length check comes before the alphabet check. -/
theorem b64d_format_iff : b64d n cs = .error .format ↔ n = 22#8 ∧ ∃ k : Fin 22, inAlpha cs[k] = false := by
  refine ⟨fun h => ?_, fun ⟨hn, hout⟩ => b64d_of_outside hn hout⟩
  rcases b64d_cases n cs with ⟨-, e⟩ | ⟨hn, hout, -⟩ | ⟨-, -, e⟩
  · rw [e] at h; cases h
  · exact ⟨hn, (charsOk_eq_false_iff cs).mp hout⟩
  · rw [e] at h; cases h

/-- R97: the errors of `decode` other than its own check's are those of `b64d`. -/
theorem codecDecode_error_iff_b64d {e : ErrKind} (he : e ≠ .invalidValue) :
    codecDecode n cs = .error e ↔ b64d n cs = .error e := by
  refine ⟨fun h => ?_, codecDecode_of_b64d_error⟩
  rcases codecDecode_cases n cs with ⟨x, hb, hx⟩ | ⟨_, -, -, hx⟩ | ⟨_, -, -, hx⟩ <;> rw [hx] at h <;> cases h
  · exact hb
  · exact absurd rfl he

/-- R144: the check on the decoded bytes comes last. -/
theorem codecDecode_invalidValue_iff_normalized : codecDecode n cs = .error .invalidValue ↔
    n = 22#8 ∧ (∀ k : Fin 22, inAlpha cs[k] = true) ∧
      normalizeMarkers (bytesOf (sextetsOfChars cs)) = emptySentinel := by
  rw [codecDecode_invalidValue_iff]
  constructor
  · rintro ⟨b, hb, hzero⟩
    obtain ⟨hn, hok, rfl⟩ := b64d_ok hb
    exact ⟨hn, (charsOk_iff cs).mp hok, (normalizeMarkers_eq_emptySentinel_iff _).mpr hzero⟩
  · rintro ⟨hn, hin, hempty⟩
    exact ⟨_, b64d_of_inside hn hin, (normalizeMarkers_eq_emptySentinel_iff _).mp hempty⟩

/-- R97: the three causes together; without R144's order each may hold beside the others. -/
theorem codecDecode_fails_iff : (∃ e, codecDecode n cs = .error e) ↔
    n ≠ 22#8 ∨ (∃ k : Fin 22, inAlpha cs[k] = false) ∨
      normalizeMarkers (bytesOf (sextetsOfChars cs)) = emptySentinel := by
  constructor
  · rintro ⟨e, h⟩
    rcases codecDecode_error h with rfl | rfl | rfl
    · exact .inl ((b64d_length_iff n cs).mp ((codecDecode_error_iff_b64d n cs (by decide)).mp h))
    · obtain ⟨-, hout⟩ := (b64d_format_iff n cs).mp ((codecDecode_error_iff_b64d n cs (by decide)).mp h)
      exact .inr (.inl hout)
    · obtain ⟨-, -, hempty⟩ := (codecDecode_invalidValue_iff_normalized n cs).mp h
      exact .inr (.inr hempty)
  · intro hcause
    by_cases hn : n = 22#8
    · by_cases hout : ∃ k : Fin 22, inAlpha cs[k] = false
      · exact ⟨_, codecDecode_of_outside hn hout⟩
      · have hin : ∀ k : Fin 22, inAlpha cs[k] = true := by simpa using hout
        have hempty := (hcause.resolve_left (not_not_intro hn)).resolve_left hout
        exact ⟨_, (codecDecode_invalidValue_iff_normalized n cs).mpr ⟨hn, hin, hempty⟩⟩
    · exact ⟨_, codecDecode_of_length_ne hn cs⟩

end

/-! ### The commands that raise, by what their functions answer (R83, R85, R98, R100) -/

section
variable {s : State} {e : ErrKind}

theorem exec_enc_raises_iff : exec .enc s = .next (raise e s) ↔ codecEncode s.ident s.fl = .error e := by
  cases h : codecEncode s.ident s.fl with
  | error x => simp [exec_enc_of_error h, raise_eq_raise_iff]
  | ok cs => simp [exec_enc_of_ok h, (raise_ne_done e s _).symm]

theorem exec_dec_raises_iff : exec .dec s = .next (raise e s) ↔ codecDecode s.slen s.sf = .error e := by
  cases h : codecDecode s.slen s.sf with
  | error x => simp [exec_dec_of_error h, raise_eq_raise_iff]
  | ok r => simp [exec_dec_of_ok h, (raise_ne_done e s _).symm]

theorem exec_b64d_raises_iff : exec .b64d s = .next (raise e s) ↔ b64d s.slen s.sf = .error e := by
  cases h : b64d s.slen s.sf with
  | error x => simp [exec_b64d_of_error h, raise_eq_raise_iff]
  | ok b => simp [exec_b64d_of_ok h, (raise_ne_done e s _).symm]

theorem exec_pack_raises_range_iff : exec .pack s = .next (raise .range s) ↔ s.fl.extractLsb 7 6 ≠ 0b00#2 := by
  rw [← flagsInRange_eq_false_iff]
  cases h : flagsInRange s.fl with
  | false => simp [exec_pack_of_not_inRange h]
  | true => simp [exec_pack_of_inRange h, (raise_ne_done .range s _).symm]

end

/-! ### Each kind on its cause, over all commands (R140, R144) -/

section
variable {i : Instr} {s t : State}

/-- R140: the kinds with the commands that raise them. -/
theorem exec_raise_kinds {e : ErrKind} (h : exec i s = .next (raise e s)) :
    (i = .dec ∨ i = .b64d) ∧ (e = .length ∨ e = .format) ∨ (i = .enc ∨ i = .dec) ∧ e = .invalidValue ∨
      (i = .enc ∨ i = .pack) ∧ e = .range := by
  rcases exec_cases h with ⟨x, hx, hkind⟩ | ⟨-, hx⟩ | ⟨-, -, -, -, hx⟩ | ⟨-, hx⟩ | ⟨-, -, hx⟩ | ⟨-, hx⟩ |
    ⟨_, -, ⟨-, hx⟩ | ⟨-, -, hx⟩⟩
  · rwa [raise_eq_raise_iff.mp hx]
  · exact absurd (congrArg State.status hx) (errorStatus_ne_probeFailed e)
  all_goals exact absurd hx (raise_ne_done e s _)

/-- R141: the status of a kind is left by the `raise` of that kind and by nothing else. -/
theorem exec_status_eq_errorStatus_iff {e : ErrKind} (h : exec i s = .next t) :
    t.status = errorStatus e ↔ exec i s = .next (raise e s) := by
  rw [h, Host.Outcome.next.injEq]
  refine ⟨fun hst => ?_, fun ht => ht ▸ rfl⟩
  have hkept := exec_keeps_all_but_status h (hst ▸ errorStatus_ne_ok e)
  rwa [hst] at hkept

/-- R98, R100: `DEC` and `B64D` share the two checks of `b64d`. -/
theorem exec_raises_string_kind_iff {e : ErrKind} (he : e = .length ∨ e = .format) :
    exec i s = .next (raise e s) ↔ (i = .dec ∨ i = .b64d) ∧ b64d s.slen s.sf = .error e := by
  have hdec : exec .dec s = .next (raise e s) ↔ b64d s.slen s.sf = .error e :=
    exec_dec_raises_iff.trans (codecDecode_error_iff_b64d _ _ (by rcases he with rfl | rfl <;> decide))
  constructor
  · intro h
    have hi : i = .dec ∨ i = .b64d := by
      rcases exec_raise_kinds h with ⟨hi, -⟩ | ⟨-, rfl⟩ | ⟨-, rfl⟩
      · exact hi
      · simp at he
      · simp at he
    refine ⟨hi, ?_⟩
    rcases hi with rfl | rfl
    · exact hdec.mp h
    · exact exec_b64d_raises_iff.mp h
  · rintro ⟨rfl | rfl, h⟩
    · exact hdec.mpr h
    · exact exec_b64d_raises_iff.mpr h

/-- R83, R85: `ENC` and `PACK` share the range check. -/
theorem exec_raises_range_iff :
    exec i s = .next (raise .range s) ↔ (i = .enc ∨ i = .pack) ∧ s.fl.extractLsb 7 6 ≠ 0b00#2 := by
  have henc : exec .enc s = .next (raise .range s) ↔ s.fl.extractLsb 7 6 ≠ 0b00#2 :=
    exec_enc_raises_iff.trans (codecEncode_range_iff _ _)
  constructor
  · intro h
    have hi : i = .enc ∨ i = .pack := by simpa using exec_raise_kinds h
    refine ⟨hi, ?_⟩
    rcases hi with rfl | rfl
    · exact henc.mp h
    · exact exec_pack_raises_range_iff.mp h
  · rintro ⟨rfl | rfl, h⟩
    · exact henc.mpr h
    · exact exec_pack_raises_range_iff.mpr h

/-- R85, R100: the two composed commands each check for a value that means nothing. -/
theorem exec_raises_invalidValue_iff : exec i s = .next (raise .invalidValue s) ↔
    (i = .enc ∧ codecEncode s.ident s.fl = .error .invalidValue) ∨
      (i = .dec ∧ codecDecode s.slen s.sf = .error .invalidValue) := by
  constructor
  · intro h
    have hi : i = .enc ∨ i = .dec := by simpa using exec_raise_kinds h
    rcases hi with rfl | rfl
    · exact .inl ⟨rfl, exec_enc_raises_iff.mp h⟩
    · exact .inr ⟨rfl, exec_dec_raises_iff.mp h⟩
  · rintro (⟨rfl, h⟩ | ⟨rfl, h⟩)
    · exact exec_enc_raises_iff.mpr h
    · exact exec_dec_raises_iff.mpr h

/-- R101: `STATUS` is zero after a failed probe and after nothing else. -/
theorem exec_status_eq_probeFailed_iff (h : exec i s = .next t) :
    t.status = probeFailedStatus ↔ i = .trydec ∧ ∃ e, codecDecode s.slen s.sf = .error e := by
  constructor
  · intro hst
    have hi : i = .trydec := by
      rcases exec_cases h with ⟨e, rfl, -⟩ | ⟨hi, -⟩ | ⟨-, -, -, -, rfl⟩ | ⟨-, rfl⟩ | ⟨-, -, rfl⟩ | ⟨-, rfl⟩ |
        ⟨_, -, ⟨-, rfl⟩ | ⟨-, -, rfl⟩⟩
      · exact absurd hst (errorStatus_ne_probeFailed e)
      · exact hi
      all_goals exact absurd (show okStatus = probeFailedStatus from hst) (by decide)
    subst hi
    cases hd : codecDecode s.slen s.sf with
    | error e => exact ⟨rfl, e, rfl⟩
    | ok r =>
      rw [exec_trydec_of_ok hd] at h
      cases h
      exact absurd (show okStatus = probeFailedStatus from hst) (by decide)
  · rintro ⟨rfl, e, hd⟩
    rw [exec_trydec_of_error hd] at h
    cases h
    rfl

/-- R140: no command records code 5, which is host software's, or 6, which is for the byte that selects none, or the unused 7. -/
theorem exec_status_ne_unrecorded (h : exec i s = .next t) :
    t.status ≠ 0x0A#8 ∧ t.status ≠ 0x0C#8 ∧ t.status ≠ 0x0E#8 := by
  rcases exec_status_cases h with ⟨e, -, hst⟩ | hst | hst
  · have hkind := exec_raise_kinds ((exec_status_eq_errorStatus_iff h).mp hst)
    rw [hst]
    rcases hkind with ⟨-, rfl | rfl⟩ | ⟨-, rfl⟩ | ⟨-, rfl⟩ <;> decide
  · rw [hst]; decide
  · rw [hst]; decide

end

/-! ### A write to `CMD` (R62, R140) -/

/-- R62: a byte outside 1..7 records IllegalCommand; a command, which any other byte runs, does not. -/
theorem performAction_wr_cmd_status {v : Byte} {s t : State} (h : performAction exec (.wr 0x13#6 v) s = .next t) :
    t.status = 0x0C#8 ↔ v.toNat = 0 ∨ 8 ≤ v.toNat := by
  by_cases hv : v.toNat = 0 ∨ 8 ≤ v.toNat
  · have hraise := h.symm.trans (performAction_wr_cmd_illegal s (decode_of_not_opcode hv))
    cases hraise
    exact iff_of_true rfl hv
  · obtain ⟨i, rfl⟩ := exists_encode_eq (b := v) (by omega)
    have hrun : exec i s = .next t := (performAction_wr_cmd s (decode_encode i)).symm.trans h
    obtain ⟨-, hillegal, -⟩ := exec_status_ne_unrecorded hrun
    exact iff_of_false hillegal hv

/-! ### The error kinds (R140, R144) -/

/-- Settles O24: each value of `STATUS` by the end of a command that leaves it, and that end by its cause. -/
theorem errorKindsByExactCause : Obligations.ErrorKindsByExactCause := by
  refine ⟨fun i s => ?_, fun v s => ?_, rfl, rfl, rfl, rfl, rfl, rfl⟩
  · obtain ⟨t, ht⟩ := exec_answers_next i s
    refine ⟨t, ht, ?_, ?_, ?_, ?_, ?_, exec_status_ne_unrecorded ht⟩
    · refine (exec_status_eq_errorStatus_iff (e := .length) ht).trans ?_
      rw [exec_raises_string_kind_iff (.inl rfl), b64d_length_iff]
    · refine (exec_status_eq_errorStatus_iff (e := .format) ht).trans ?_
      rw [exec_raises_string_kind_iff (.inr rfl), b64d_format_iff]
    · exact (exec_status_eq_errorStatus_iff (e := .range) ht).trans exec_raises_range_iff
    · refine (exec_status_eq_errorStatus_iff (e := .invalidValue) ht).trans ?_
      rw [exec_raises_invalidValue_iff, codecEncode_invalidValue_iff, codecDecode_invalidValue_iff_normalized]
    · refine (exec_status_eq_probeFailed_iff ht).trans ?_
      rw [codecDecode_fails_iff]
  · obtain ⟨t, ht⟩ := performAction_answers_next exec_answers_next (.wr 0x13#6 v) s
    exact ⟨t, ht, performAction_wr_cmd_status ht⟩

end Sys2Proof.Machine

/-!
The host's reset (R160): what the action answers, and the two register arrays location by location.
-/

namespace Sys2Proof.Machine

/-! ### The reset action (R160) -/

theorem performAction_reset (s : State) : performAction exec .reset s = .next (resetRegs s) := rfl

theorem resetRegs_ident_getElem (s : State) (i : Fin 16) : (resetRegs s).ident[i] = 0x00#8 := by
  rw [resetRegs_ident]
  exact Vector.getElem_replicate _

theorem resetRegs_sf_getElem (s : State) (k : Fin 22) : (resetRegs s).sf[k] = 0x00#8 := by
  rw [resetRegs_sf]
  exact Vector.getElem_replicate _

/-- Settles O14: the state answered is `resetRegs s`, read register by register. -/
theorem resetActionZeroesEveryRegister : Obligations.ResetActionZeroesEveryRegister :=
  fun s => ⟨resetRegs s, performAction_reset s, resetRegs_ident_getElem s, resetRegs_fl s, resetRegs_slen s,
    resetRegs_sf_getElem s, resetRegs_status s⟩

end Sys2Proof.Machine
